-- ==== Sys2Proof/Word.lean ====
section
/-! DEFINITION. The word types of the block: the byte of every port and memory access, and the 20-bit
transaction word. Spec: `00_scope.md` R8 (`DATA_WIDTH`), R13; `30_encoding.md` R80. -/

namespace Sys2Proof

/-- A port value or a memory byte (`DATA_WIDTH` = 8, R8). -/
abbrev Byte := BitVec 8

/-- A transaction word (R80). The binary form is the spec's own decision D1 (log 3). -/
abbrev Word := BitVec 20

end Sys2Proof
end

