-- ==== Sys2Proof/Syntax.lean ====
section
/-! DEFINITION. The 28 transactions, one constructor per row of `spec/opcode_table.json`.
Spec: `30_encoding.md` R80 to R92. -/

namespace Sys2Proof

/-- The transactions the block accepts (R80, R84, R86). -/
inductive Instr where
  /-- `IN 1`, R130. -/
  | in1
  /-- `IN 2`, R131. -/
  | in2
  /-- `IN 3`, R112. -/
  | in3
  /-- `IN port` on a port other than 1, 2, 3: R132. -/
  | inOther (port : Byte)
  /-- `OUT 2, v`, R110. -/
  | out2 (v : Byte)
  /-- `OUT 3, v`, R161. -/
  | out3 (v : Byte)
  /-- `OUT 4, v`, R111. -/
  | out4 (v : Byte)
  /-- `OUT 5, v`, R162. -/
  | out5 (v : Byte)
  /-- `OUT port, v` on a port other than 2, 3, 4, 5: R163. -/
  | outOther (port : Byte) (v : Byte)
  /-- `KEYUP coin`, R144. -/
  | keyupCoin
  /-- `KEYUP player2-start`, R145. -/
  | keyupPlayer2Start
  /-- `KEYUP player1-start`, R146. -/
  | keyupPlayer1Start
  /-- `KEYUP tilt`, R147. -/
  | keyupTilt
  /-- `KEYUP fire`, R148. -/
  | keyupFire
  /-- `KEYUP left`, R149. -/
  | keyupLeft
  /-- `KEYUP right`, R150. -/
  | keyupRight
  /-- `KEYUP quit`, R151. -/
  | keyupQuit
  /-- `KEYUP` of a code 8 to 255: R152. -/
  | keyupOther (code : Byte)
  /-- `KEYDOWN coin`, R134. -/
  | keydownCoin
  /-- `KEYDOWN player2-start`, R135. -/
  | keydownPlayer2Start
  /-- `KEYDOWN player1-start`, R136. -/
  | keydownPlayer1Start
  /-- `KEYDOWN tilt`, R137. -/
  | keydownTilt
  /-- `KEYDOWN fire`, R138. -/
  | keydownFire
  /-- `KEYDOWN left`, R139. -/
  | keydownLeft
  /-- `KEYDOWN right`, R140. -/
  | keydownRight
  /-- `KEYDOWN quit`, R141. -/
  | keydownQuit
  /-- `KEYDOWN` of a code 8 to 255: R142. -/
  | keydownOther (code : Byte)
  /-- `POLL`, R206. Its operands `now`, `inte` and `mem` are beside the word (R90). -/
  | poll
deriving DecidableEq, Repr

end Sys2Proof
end

