-- ==== Sys2Proof/WellFormed.lean ====
section
/-! DEFINITION. Which terms of `Instr` are transactions: an `_OTHER` row takes only the port numbers and
control codes that have no row of their own. Spec: `30_encoding.md` R84, R86, R92. -/

namespace Sys2Proof

/-- The ports IN reaches by a row of their own: 1, 2, 3 (R84). -/
def mappedInPort (port : Byte) : Bool := port == 1 || port == 2 || port == 3

/-- The ports OUT reaches by a row of their own: 2, 3, 4, 5 (R84). -/
def mappedOutPort (port : Byte) : Bool := port == 2 || port == 3 || port == 4 || port == 5

/-- The recognised control codes: 0 to 7 (R86). -/
def recognisedCode (code : Byte) : Bool := decide (code.toNat < 8)

/-- A term is a transaction of the opcode table (R92). -/
def WellFormed : Instr → Bool
  | .inOther port => !mappedInPort port
  | .outOther port _ => !mappedOutPort port
  | .keyupOther code => !recognisedCode code
  | .keydownOther code => !recognisedCode code
  | .in1 | .in2 | .in3 | .out2 _ | .out3 _ | .out4 _ | .out5 _ => true
  | .keyupCoin | .keyupPlayer2Start | .keyupPlayer1Start | .keyupTilt => true
  | .keyupFire | .keyupLeft | .keyupRight | .keyupQuit => true
  | .keydownCoin | .keydownPlayer2Start | .keydownPlayer1Start | .keydownTilt => true
  | .keydownFire | .keydownLeft | .keydownRight | .keydownQuit => true
  | .poll => true

end Sys2Proof
end

