-- ==== Sys2Proof/Decode.lean ====
section
/-! DEFINITION. The transaction word: its fields, the decoder (total on every 20-bit word, refusing the
reserved classes by name) and the encoder. Spec: `30_encoding.md` R80 to R92. The binary form is the
spec's own decision D1 (log 3). -/

namespace Sys2Proof

/-- The field `class`, bits 19:16 (R80). -/
def Word.cls (w : Word) : BitVec 4 := w.extractLsb' 16 4

/-- The field `sel`, bits 15:8 (R80). -/
def Word.sel (w : Word) : Byte := w.extractLsb' 8 8

/-- The field `data`, bits 7:0 (R80). -/
def Word.data (w : Word) : Byte := w.extractLsb' 0 8

/-- The word with the given fields (R80): `c ss dd` in the notation of the spec. -/
def mkWord (cls : BitVec 4) (sel data : Byte) : Word := cls ++ sel ++ data

/-- Why the decoder refuses a word. -/
inductive DecodeError where
  /-- Classes 0x5 to 0xF are reserved: such a word is not a transaction (R91). -/
  | reservedClass (cls : BitVec 4)
deriving DecidableEq, Repr

/-- Class 0, IN: `sel` is matched against 1, 2, 3 (R92). -/
def decodeIn (sel : Byte) : Instr :=
  match sel.toNat with
  | 1 => .in1
  | 2 => .in2
  | 3 => .in3
  | _ => .inOther sel

/-- Class 1, OUT: `sel` is matched against 2, 3, 4, 5 (R92). -/
def decodeOut (sel data : Byte) : Instr :=
  match sel.toNat with
  | 2 => .out2 data
  | 3 => .out3 data
  | 4 => .out4 data
  | 5 => .out5 data
  | _ => .outOther sel data

/-- Class 2, KEYUP: the control codes of R86 (R92). -/
def decodeKeyup (sel : Byte) : Instr :=
  match sel.toNat with
  | 0 => .keyupCoin
  | 1 => .keyupPlayer2Start
  | 2 => .keyupPlayer1Start
  | 3 => .keyupTilt
  | 4 => .keyupFire
  | 5 => .keyupLeft
  | 6 => .keyupRight
  | 7 => .keyupQuit
  | _ => .keyupOther sel

/-- Class 3, KEYDOWN: the control codes of R86 (R92). -/
def decodeKeydown (sel : Byte) : Instr :=
  match sel.toNat with
  | 0 => .keydownCoin
  | 1 => .keydownPlayer2Start
  | 2 => .keydownPlayer1Start
  | 3 => .keydownTilt
  | 4 => .keydownFire
  | 5 => .keydownLeft
  | 6 => .keydownRight
  | 7 => .keydownQuit
  | _ => .keydownOther sel

/-- The decoder (R92): `class` first, then `sel`. The don't-care fields of R83 are ignored. -/
def decode (w : Word) : Except DecodeError Instr :=
  match w.cls.toNat with
  | 0 => .ok (decodeIn w.sel)
  | 1 => .ok (decodeOut w.sel w.data)
  | 2 => .ok (decodeKeyup w.sel)
  | 3 => .ok (decodeKeydown w.sel)
  | 4 => .ok .poll
  | _ => .error (.reservedClass w.cls)

/-- The decoder on a word numbered as `spec/opcode_table.json` numbers it. A table word is one 20-bit
transaction word; a number with a bit above bit 19 is no transaction word. -/
def decodeTableWord (nbits w : Nat) : Option Instr :=
  if w % 2 ^ nbits < 2 ^ 20 then
    match decode (BitVec.ofNat 20 (w % 2 ^ nbits)) with
    | .ok i => some i
    | .error _ => none
  else none

/-- The canonical encoding: don't-care fields are zero (R83, R84, R86, R93). -/
def encode : Instr → Word
  | .in1 => mkWord 0 0x01 0
  | .in2 => mkWord 0 0x02 0
  | .in3 => mkWord 0 0x03 0
  | .inOther port => mkWord 0 port 0
  | .out2 v => mkWord 1 0x02 v
  | .out3 v => mkWord 1 0x03 v
  | .out4 v => mkWord 1 0x04 v
  | .out5 v => mkWord 1 0x05 v
  | .outOther port v => mkWord 1 port v
  | .keyupCoin => mkWord 2 0x00 0
  | .keyupPlayer2Start => mkWord 2 0x01 0
  | .keyupPlayer1Start => mkWord 2 0x02 0
  | .keyupTilt => mkWord 2 0x03 0
  | .keyupFire => mkWord 2 0x04 0
  | .keyupLeft => mkWord 2 0x05 0
  | .keyupRight => mkWord 2 0x06 0
  | .keyupQuit => mkWord 2 0x07 0
  | .keyupOther code => mkWord 2 code 0
  | .keydownCoin => mkWord 3 0x00 0
  | .keydownPlayer2Start => mkWord 3 0x01 0
  | .keydownPlayer1Start => mkWord 3 0x02 0
  | .keydownTilt => mkWord 3 0x03 0
  | .keydownFire => mkWord 3 0x04 0
  | .keydownLeft => mkWord 3 0x05 0
  | .keydownRight => mkWord 3 0x06 0
  | .keydownQuit => mkWord 3 0x07 0
  | .keydownOther code => mkWord 3 code 0
  | .poll => mkWord 4 0 0

/-- A row of the opcode table: the bits a word must have under a mask (R92). -/
structure TableRow where
  mask : Word
  value : Word
  mnemonic : String
deriving DecidableEq, Repr

/-- The word has the row's bits. -/
def TableRow.fits (row : TableRow) (w : Word) : Bool := w &&& row.mask == row.value

/-- The opcode table, 28 rows, as `spec/opcode_table.json` has them (R92). -/
def opcodeTable : List TableRow :=
  [⟨0xFFF00, 0x00100, "IN1"⟩,
   ⟨0xFFF00, 0x00200, "IN2"⟩,
   ⟨0xFFF00, 0x00300, "IN3"⟩,
   ⟨0xF0000, 0x00000, "IN_OTHER"⟩] ++
  [⟨0xFFF00, 0x10200, "OUT2"⟩,
   ⟨0xFFF00, 0x10300, "OUT3"⟩,
   ⟨0xFFF00, 0x10400, "OUT4"⟩,
   ⟨0xFFF00, 0x10500, "OUT5"⟩,
   ⟨0xF0000, 0x10000, "OUT_OTHER"⟩] ++
  [⟨0xFFF00, 0x20000, "KEYUP_COIN"⟩,
   ⟨0xFFF00, 0x20100, "KEYUP_PLAYER2_START"⟩,
   ⟨0xFFF00, 0x20200, "KEYUP_PLAYER1_START"⟩,
   ⟨0xFFF00, 0x20300, "KEYUP_TILT"⟩,
   ⟨0xFFF00, 0x20400, "KEYUP_FIRE"⟩,
   ⟨0xFFF00, 0x20500, "KEYUP_LEFT"⟩,
   ⟨0xFFF00, 0x20600, "KEYUP_RIGHT"⟩,
   ⟨0xFFF00, 0x20700, "KEYUP_QUIT"⟩,
   ⟨0xF0000, 0x20000, "KEYUP_OTHER"⟩] ++
  [⟨0xFFF00, 0x30000, "KEYDOWN_COIN"⟩,
   ⟨0xFFF00, 0x30100, "KEYDOWN_PLAYER2_START"⟩,
   ⟨0xFFF00, 0x30200, "KEYDOWN_PLAYER1_START"⟩,
   ⟨0xFFF00, 0x30300, "KEYDOWN_TILT"⟩,
   ⟨0xFFF00, 0x30400, "KEYDOWN_FIRE"⟩,
   ⟨0xFFF00, 0x30500, "KEYDOWN_LEFT"⟩,
   ⟨0xFFF00, 0x30600, "KEYDOWN_RIGHT"⟩,
   ⟨0xFFF00, 0x30700, "KEYDOWN_QUIT"⟩,
   ⟨0xF0000, 0x30000, "KEYDOWN_OTHER"⟩] ++
  [⟨0xF0000, 0x40000, "POLL"⟩]

/-- The mnemonic of a transaction's row. -/
def mnemonicOf : Instr → String
  | .in1 => "IN1"
  | .in2 => "IN2"
  | .in3 => "IN3"
  | .inOther _ => "IN_OTHER"
  | .out2 _ => "OUT2"
  | .out3 _ => "OUT3"
  | .out4 _ => "OUT4"
  | .out5 _ => "OUT5"
  | .outOther _ _ => "OUT_OTHER"
  | .keyupCoin => "KEYUP_COIN"
  | .keyupPlayer2Start => "KEYUP_PLAYER2_START"
  | .keyupPlayer1Start => "KEYUP_PLAYER1_START"
  | .keyupTilt => "KEYUP_TILT"
  | .keyupFire => "KEYUP_FIRE"
  | .keyupLeft => "KEYUP_LEFT"
  | .keyupRight => "KEYUP_RIGHT"
  | .keyupQuit => "KEYUP_QUIT"
  | .keyupOther _ => "KEYUP_OTHER"
  | .keydownCoin => "KEYDOWN_COIN"
  | .keydownPlayer2Start => "KEYDOWN_PLAYER2_START"
  | .keydownPlayer1Start => "KEYDOWN_PLAYER1_START"
  | .keydownTilt => "KEYDOWN_TILT"
  | .keydownFire => "KEYDOWN_FIRE"
  | .keydownLeft => "KEYDOWN_LEFT"
  | .keydownRight => "KEYDOWN_RIGHT"
  | .keydownQuit => "KEYDOWN_QUIT"
  | .keydownOther _ => "KEYDOWN_OTHER"
  | .poll => "POLL"

end Sys2Proof
end

