-- ==== Sys2Proof/Config.lean ====
section
/-! DEFINITION. The constants the spec fixes and the parameters it leaves without a value.
Spec: `00_scope.md` R2, R8. -/

namespace Sys2Proof

/-- `SCREEN_WIDTH`: columns of the frame buffer and of the video window (R8). -/
def screenWidth : Nat := 224

/-- `SCREEN_HEIGHT`: rows of the frame buffer (R8). -/
def screenHeight : Nat := 256

/-- `BYTES_PER_COLUMN`: bytes of video memory per column (R8). -/
def bytesPerColumn : Nat := 32

/-- `VRAM_SIZE`: bytes of the video window, 224 * 32 (R8). -/
def vramSize : Nat := 7168

/-- `BYTES_PER_PIXEL`: bytes of frame buffer per pixel (R8). -/
def bytesPerPixel : Nat := 4

/-- `FB_SIZE`: bytes of the frame buffer, 224 * 256 * 4 (R8). -/
def frameBufferSize : Nat := 229376

/-- `CLIP_COUNT`: number of clip indices (R8). -/
def clipCount : Nat := 9

/-- The bits of `inputPort1` that no control drives: 3 and 7 (`10_state.md` R21). -/
def undrivenMask1 : Byte := 0x88

/-- The bits of `inputPort2` that no control drives: 0, 1, 3 and 7 (`10_state.md` R22). -/
def undrivenMask2 : Byte := 0x8B

/-- The parameters of R8. They have no value in the source; a model takes them as an argument, so they
stand in the state, fixed for a run, and every statement holds for every value of them. -/
structure Params where
  /-- `TICK_THRESHOLD`, in nanoseconds: the elapsed time at or above which a poll is due. -/
  tickThreshold : Nat
  /-- `VRAM_BASE`: first address of the video window. -/
  vramBase : Nat
  /-- `MEM_SIZE`: number of bytes of the CPU's memory array. -/
  memSize : Nat
  /-- `PORT1_SWITCH_DEFAULT`: only bits 3 and 7 are used. -/
  port1SwitchDefault : Byte
  /-- `PORT2_SWITCH_DEFAULT`: only bits 0, 1, 3 and 7 are used. -/
  port2SwitchDefault : Byte
deriving DecidableEq, Repr

/-- The nominal values R8 gives (decisions D6 to D9 of the spec). DESIGN CHOICE, unsafe, log 8: no
statement rests on them. -/
def Params.nominal : Params where
  tickThreshold := 8333333
  vramBase := 0x2400
  memSize := 65536
  port1SwitchDefault := 0x00
  port2SwitchDefault := 0x00

end Sys2Proof
end

