-- ==== Sys2Proof/Machine/State.lean ====
section
/-! DEFINITION. The state of the machine as plain data, the reasons a step can stop, and reset.
Spec: `10_state.md` R20 to R38; `00_scope.md` R8, R10 to R12; `70_reset_and_hazards.md` R250 to R255, R271. -/

namespace Sys2Proof.Machine

/-- The two interrupt phases (R28): `mid`, and `fin` for `End` (log 27). -/
inductive Phase where
  | mid
  | fin
deriving DecidableEq, Repr

/-- Whether the surrounding loop runs (R32). -/
inductive Run where
  | running
  | stopped
deriving DecidableEq, Repr

/-- Where the main loop stands in its iteration (`44_frame_scheduler.md` R208): event polling up to and
with its one POLL, or the CPU's `step()` (log 29). -/
inductive Turn where
  | events
  | cpuStep
deriving DecidableEq, Repr

/-- The two interrupt vectors (`60_exceptions.md` R224): 1 mid-frame, 2 end-of-frame. -/
inductive IrqVector where
  | midFrame
  | endFrame
deriving DecidableEq, Repr

/-- The CPU's memory array (R33a): (address, byte) pairs, addresses rising, none equal to what an
unlisted address reads as (`Memory.wf`). -/
abbrev Memory := List Host.Cell

/-- The frame buffer (R30): the bytes at offsets 0 to 229375, held in the same sparse form (log 12). -/
abbrev FrameBuffer := List Host.Cell

/-- A handle of a pre-loaded clip (R31); what it stands for is the audio backend's. -/
structure ClipHandle where
  id : Nat
deriving DecidableEq, Repr

/-- The output events (R12). -/
inductive Event where
  /-- `Reply(v)`: the byte an IN returns to the CPU. -/
  | reply (v : Byte)
  /-- `Interrupt(v)`: a call of the CPU's `deliverInterrupt`. -/
  | interrupt (v : IrqVector)
  /-- `Clip(k)`: a trigger handed to the audio backend. -/
  | clip (k : Fin 9)
  /-- `Frame(fb)`: the frame buffer, by value, handed to the rendering backend. -/
  | frame (fb : FrameBuffer)
deriving DecidableEq, Repr

/-- What the fatal runtime failure reports (`60_exceptions.md` R221): the instruction byte and its
address, as the CPU gives them (log 22). -/
structure Diagnostic where
  instructionByte : Byte
  address : Nat
deriving DecidableEq, Repr

/-- What an outside agent may do to the running block (`70_reset_and_hazards.md` R271). -/
inductive Move where
  /-- A transaction word presented by the CPU, the operator or the main loop (R80, R81). -/
  | transaction (word : Word)
  /-- The timebase shows `now` (R11b). -/
  | timebase (now : Nat)
  /-- The CPU stores a byte to its memory. -/
  | cpuStore (address : Nat) (v : Byte)
  /-- The CPU changes its interrupt-enable flag. -/
  | cpuInte (flag : Bool)
  /-- What the CPU's `deliverInterrupt` stores to its memory from now on (log 15). -/
  | cpuDelivery (stores : List Host.Cell)
  /-- `step()` fails on an invalid instruction (`60_exceptions.md` R221). -/
  | cpuInvalid (instructionByte : Byte) (address : Nat)
  /-- The CPU's `step()` returns; the iteration ends (`44_frame_scheduler.md` R208). -/
  | cpuStepDone
deriving DecidableEq, Repr

/-- Why the machine stops with a fault. -/
inductive Fault where
  /-- Raised by every move after `run = Stopped`: the block accepts nothing more (R261, U12, decision
  D20 of the spec). Safe: the model does nothing where nothing is said to happen. -/
  | stopped
  /-- Raised by a CPU store to an address outside the memory array (R50: the array has `MEM_SIZE`
  bytes). Safe: the model stops. -/
  | addressOutsideMemory (address : Nat)
deriving DecidableEq, Repr

/-- Why the machine refuses. -/
inductive Refusal where
  /-- Raised by an arm of `exec` whose instruction has no meaning yet (none is left). Safe. -/
  | notModelled (mnemonic : String)
  /-- Raised by a step on a word of a reserved class (R91, U11, decision D18 of the spec). Safe. -/
  | reservedClass (cls : BitVec 4)
  /-- Raised by every move in a configuration that R8 excludes (R59, U14, decision D21 of the spec).
  Safe. -/
  | configuration
  /-- Raised by a step on a move at a place of the iteration where the main loop never presents it
  (`44_frame_scheduler.md` R208; `70_reset_and_hazards.md` R271 "assumed never to do"; log 29). Safe. -/
  | outOfTurn
deriving DecidableEq, Repr

/-- The state: the twelve items of R20, the collaborators' state that POLL samples (R33), and the
model's own fields (outputs, inputs, parameters). -/
structure State where
  /-- R21. -/
  inputPort1 : Byte
  /-- R22. -/
  inputPort2 : Byte
  /-- R23. -/
  shiftLow : Byte
  /-- R24. -/
  shiftHigh : Byte
  /-- R25. -/
  shiftOffset : BitVec 3
  /-- R26. -/
  lastSoundPort3 : Byte
  /-- R27. -/
  lastSoundPort5 : Byte
  /-- R28. -/
  phase : Phase
  /-- R29, in nanoseconds. -/
  tickBase : Nat
  /-- R30. -/
  frameBuffer : FrameBuffer
  /-- R31. -/
  clipTable : List ClipHandle
  /-- R32. -/
  run : Run
  /-- Where the main loop stands in its iteration (`44_frame_scheduler.md` R208; log 29). -/
  turn : Turn
  /-- The CPU's memory array (R33a). -/
  mem : Memory
  /-- The CPU's interrupt-enable flag (R33c). -/
  inte : Bool
  /-- The value of the timebase (R200). -/
  now : Nat
  /-- FREE VALUE: what the CPU's `deliverInterrupt` stores to its memory (R228, R229; log 15). -/
  deliveryStores : List Host.Cell
  /-- The output events, in the order emitted (R12). -/
  out : List Event
  /-- What the fatal runtime failure reported, if it happened (R221). -/
  diagnostic : Option Diagnostic
  /-- The parameters of R8, fixed for a run. -/
  params : Params
  /-- The moves of the outside agents still to come, oldest first (log 1). -/
  moves : List Move
deriving DecidableEq, Repr

/-- What the spec leaves to the surroundings at reset (R253, R254, R258): the timebase value, the CPU's
memory, flag and delivery, the clip handles, the unspecified content of the frame buffer, and the moves
to come. -/
structure Surroundings where
  now : Nat
  mem : Memory
  inte : Bool
  deliveryStores : List Host.Cell
  clipTable : List ClipHandle
  frameBuffer : FrameBuffer
  moves : List Move
deriving DecidableEq, Repr

/-- Surroundings that give nothing: the values `State.reset` takes where the spec gives none (DESIGN
CHOICE, unsafe: logs 9, 10, 13, 14, 15, 21). -/
def Surroundings.quiet : Surroundings where
  now := 0
  mem := []
  inte := false
  deliveryStores := []
  clipTable := (List.range clipCount).map ClipHandle.mk
  frameBuffer := []
  moves := []

/-- The state after reset (R38, R250) for given parameters and surroundings: one initial state per
choice of the parameters (R255). -/
def State.resetWith (p : Params) (e : Surroundings) : State where
  inputPort1 := p.port1SwitchDefault &&& undrivenMask1
  inputPort2 := p.port2SwitchDefault &&& undrivenMask2
  shiftLow := 0x00
  shiftHigh := 0x00
  shiftOffset := 0
  lastSoundPort3 := 0x00
  lastSoundPort5 := 0x00
  phase := .mid
  tickBase := e.now
  frameBuffer := e.frameBuffer
  clipTable := e.clipTable
  run := .running
  turn := .events
  mem := e.mem
  inte := e.inte
  now := e.now
  deliveryStores := e.deliveryStores
  out := []
  diagnostic := none
  params := p
  moves := e.moves

/-- The machine right after reset, at the nominal parameters and quiet surroundings (R38). -/
def State.reset : State := State.resetWith Params.nominal Surroundings.quiet

end Sys2Proof.Machine
end

