-- ==== Sys2Proof/Machine/Flags.lean ====
section
/-! DEFINITION. The block computes no condition code (`10_state.md` R35). Its flags are the nine
edge-detector bits inside the sound latches; here is their rule. Spec: `42_sound_edge_detector.md` R160. -/

namespace Sys2Proof.Machine

/-- `MAP(3)`: the (bit, clip) pairs of OUT port 3 (R160). -/
def soundMap3 : List (Nat × Fin 9) := [(0, 0), (1, 1), (2, 2), (3, 3)]

/-- `MAP(5)`: the (bit, clip) pairs of OUT port 5 (R160). -/
def soundMap5 : List (Nat × Fin 9) := [(0, 4), (1, 5), (2, 6), (3, 7), (4, 8)]

/-- `value & ~last`: the lines that rise (R160). -/
def risingLines (value last : Byte) : Byte := value &&& ~~~last

/-- The `Clip` events of one write (R160 step 2). An unordered set; ascending bit order where a list is
needed (R164, decision D15 of the spec, log 20). -/
def clipEvents (soundMap : List (Nat × Fin 9)) (value last : Byte) : List Event :=
  soundMap.filterMap fun line =>
    if (risingLines value last).getLsbD line.1 then some (.clip line.2) else none

end Sys2Proof.Machine
end

