-- ==== Sys2Proof/Machine/Operands.lean ====
section
/-! DEFINITION. Operand assembly: the fields of a data byte, the shift window, and the control map.
Spec: `30_encoding.md` R86 to R89; `40_shift_register.md` R112, R113. -/

namespace Sys2Proof.Machine

/-- The field `offset` of an OUT 2 data byte: `v & 0x7`, stored in three bits (R88, R110). -/
def offsetField (v : Byte) : BitVec 3 := v.extractLsb' 0 3

/-- The conceptual 16-bit value `(shiftHigh << 8) | shiftLow` (R56, R112). -/
def shiftValue (hi lo : Byte) : BitVec 16 := (hi.setWidth 16 <<< 8) ||| lo.setWidth 16

/-- The reply of IN 3 (R112): the 16-bit value shifted right by `8 - shiftOffset`, logically, then cut
to 8 bits. -/
def shiftWindow (hi lo : Byte) (offset : BitVec 3) : Byte :=
  (shiftValue hi lo >>> (8 - offset.toNat)).setWidth 8

/-- The controls that have a port bit (R87). Quit has none. -/
inductive Control where
  | coin
  | player2Start
  | player1Start
  | tilt
  | fire
  | left
  | right
deriving DecidableEq, Repr

/-- The control code of a control (R86). -/
def controlCode : Control → Byte
  | .coin => 0x00
  | .player2Start => 0x01
  | .player1Start => 0x02
  | .tilt => 0x03
  | .fire => 0x04
  | .left => 0x05
  | .right => 0x06

/-- `MASK1(control)`, the bits of `inputPort1` (R87). -/
def mask1 : Control → Byte
  | .coin => 0x01
  | .player2Start => 0x02
  | .player1Start => 0x04
  | .tilt => 0x00
  | .fire => 0x10
  | .left => 0x20
  | .right => 0x40

/-- `MASK2(control)`, the bits of `inputPort2` (R87). -/
def mask2 : Control → Byte
  | .coin => 0x00
  | .player2Start => 0x00
  | .player1Start => 0x00
  | .tilt => 0x04
  | .fire => 0x10
  | .left => 0x20
  | .right => 0x40

/-- The number the CPU is given with an interrupt (`60_exceptions.md` R228). -/
def IrqVector.number : IrqVector → Nat
  | .midFrame => 1
  | .endFrame => 2

/-- The one-bit encoding of `phase` (`10_state.md` R28, decision D14 of the spec). -/
def Phase.toBit : Phase → BitVec 1
  | .mid => 0
  | .fin => 1

/-- The phase after a fired poll (`44_frame_scheduler.md` R203). -/
def Phase.toggle : Phase → Phase
  | .mid => .fin
  | .fin => .mid

/-- The vector a fired poll requests (`44_frame_scheduler.md` R203). -/
def Phase.vector : Phase → IrqVector
  | .mid => .midFrame
  | .fin => .endFrame

end Sys2Proof.Machine
end

