-- ==== Sys2Proof/Machine/Ops.lean ====
section
/-! DEFINITION. The named operations over memory, the frame buffer and the registers that the meanings
share, among them the interrupt request and the orderly and fatal stop. -/

namespace Sys2Proof.Machine

/-- What an unlisted address of a `Memory` or `FrameBuffer` reads as (DESIGN CHOICE, log 13). -/
def unlistedByte : Byte := 0x00

/-- Read one byte (`MemRead(addr, 1)`, R13). -/
def Memory.read : Memory → Nat → Byte
  | [], _ => unlistedByte
  | (k, v) :: rest, a => if k = a then v else Memory.read rest a

/-- Put a byte at the head of a list that may hold it, or leave it out (canonical form). -/
def Memory.putFront (a : Nat) (v : Byte) (rest : Memory) : Memory :=
  if v = unlistedByte then rest else (a, v) :: rest

/-- Write one byte, keeping the canonical form. -/
def Memory.write : Memory → Nat → Byte → Memory
  | [], a, v => Memory.putFront a v []
  | (k, w) :: rest, a, v =>
    if a < k then Memory.putFront a v ((k, w) :: rest)
    else if a = k then Memory.putFront a v rest
    else (k, w) :: Memory.write rest a v

/-- Write the bytes of a list of cells, first to last. -/
def Memory.storeAll (m : Memory) (stores : List Host.Cell) : Memory :=
  stores.foldl (fun acc c => Memory.write acc c.1 c.2) m

/-- Write consecutive bytes from `base` up. -/
def Memory.writeBytes : Memory → Nat → List Byte → Memory
  | m, _, [] => m
  | m, base, v :: rest => Memory.writeBytes (Memory.write m base v) (base + 1) rest

/-- Canonical form from `lo` up: addresses strictly rising, no listed byte equal to the unlisted one. -/
def Memory.wfFrom : Nat → Memory → Bool
  | _, [] => true
  | lo, (k, v) :: rest => decide (lo ≤ k) && decide (v ≠ unlistedByte) && Memory.wfFrom (k + 1) rest

/-- The canonical form of a memory. -/
def Memory.wf (m : Memory) : Bool := Memory.wfFrom 0 m

/-- Every listed address is below `size`. -/
def Memory.within (m : Memory) (size : Nat) : Bool := m.all fun c => decide (c.1 < size)

/-- A configuration R8 allows: `VRAM_BASE + VRAM_SIZE <= MEM_SIZE` and `TICK_THRESHOLD > 0`. -/
def configurationOk (p : Params) : Bool :=
  decide (p.vramBase + vramSize ≤ p.memSize) && decide (0 < p.tickThreshold)

/-- A move takes effect only in an allowed configuration (R59, log 19) and while `run = Running`
(R261, log 17). -/
def whenAccepted (s : State) (o : Host.Outcome State Fault Refusal) : Host.Outcome State Fault Refusal :=
  if configurationOk s.params then
    match s.run with
    | .running => o
    | .stopped => .fault .stopped
  else .refused .configuration

/-- The move is accepted and the next state is `t`. -/
def accept (s t : State) : Host.Outcome State Fault Refusal := whenAccepted s (.next t)

/-- `emit` (R13): append output events. -/
def State.emit (s : State) (events : List Event) : State := { s with out := s.out ++ events }

/-- `KEYDOWN ctl`: both ports in one atomic update (`41_input_port_latch.md` R133). -/
def pressControl (ctl : Control) (s : State) : State :=
  { s with
    inputPort1 := s.inputPort1 ||| mask1 ctl
    inputPort2 := s.inputPort2 ||| mask2 ctl }

/-- `KEYUP ctl`: both ports in one atomic update (`41_input_port_latch.md` R143). -/
def releaseControl (ctl : Control) (s : State) : State :=
  { s with
    inputPort1 := s.inputPort1 &&& ~~~mask1 ctl
    inputPort2 := s.inputPort2 &&& ~~~mask2 ctl }

/-- Request the interrupt of the current phase: emit it, toggle the phase, and let the CPU's synchronous
delivery store what it stores (`44_frame_scheduler.md` R203, `60_exceptions.md` R228, R229). -/
def deliverInterrupt (s : State) : State :=
  { s with
    phase := s.phase.toggle
    mem := Memory.storeAll s.mem s.deliveryStores
    out := s.out ++ [.interrupt s.phase.vector] }

/-- The orderly stop (`41_input_port_latch.md` R141): every latch keeps its value. -/
def stopRun (s : State) : State := { s with run := .stopped }

/-- The fatal runtime failure (`60_exceptions.md` R221): the run stops, the report is recorded. -/
def failRun (instructionByte : Byte) (address : Nat) (s : State) : State :=
  { s with run := .stopped, diagnostic := some ⟨instructionByte, address⟩ }

end Sys2Proof.Machine
end

