-- ==== Sys2Proof/Machine/InputPorts.lean ====
section
/-! DEFINITION. The input port latch: IN 1, IN 2, IN other, KEYDOWN, KEYUP.
Spec: `41_input_port_latch.md` R130 to R153. -/

namespace Sys2Proof.Machine

/-- `IN 1` (R130): reply with `inputPort1`, unmodified. -/
def execIn1 (s : State) : Host.Outcome State Fault Refusal :=
  accept s (s.emit [.reply s.inputPort1])

/-- `IN 2` (R131): reply with `inputPort2`, unmodified. -/
def execIn2 (s : State) : Host.Outcome State Fault Refusal :=
  accept s (s.emit [.reply s.inputPort2])

/-- `IN port` on any other port (R132): reply 0x00 whatever the port. -/
def execInOther (_port : Byte) (s : State) : Host.Outcome State Fault Refusal :=
  accept s (s.emit [.reply 0x00])

/-- `KEYDOWN coin` (R134). -/
def execKeydownCoin (s : State) : Host.Outcome State Fault Refusal :=
  accept s (pressControl .coin s)

/-- `KEYDOWN player2-start` (R135). -/
def execKeydownPlayer2Start (s : State) : Host.Outcome State Fault Refusal :=
  accept s (pressControl .player2Start s)

/-- `KEYDOWN player1-start` (R136). -/
def execKeydownPlayer1Start (s : State) : Host.Outcome State Fault Refusal :=
  accept s (pressControl .player1Start s)

/-- `KEYDOWN tilt` (R137). -/
def execKeydownTilt (s : State) : Host.Outcome State Fault Refusal :=
  accept s (pressControl .tilt s)

/-- `KEYDOWN fire` (R138). -/
def execKeydownFire (s : State) : Host.Outcome State Fault Refusal :=
  accept s (pressControl .fire s)

/-- `KEYDOWN left` (R139). -/
def execKeydownLeft (s : State) : Host.Outcome State Fault Refusal :=
  accept s (pressControl .left s)

/-- `KEYDOWN right` (R140). -/
def execKeydownRight (s : State) : Host.Outcome State Fault Refusal :=
  accept s (pressControl .right s)

/-- `KEYDOWN quit` (R141): `run <- Stopped`; the press is the trigger (decision D16 of the spec, log 16). -/
def execKeydownQuit (s : State) : Host.Outcome State Fault Refusal :=
  accept s (stopRun s)

/-- `KEYDOWN` of a code that is no control (R142): ignored. -/
def execKeydownOther (_code : Byte) (s : State) : Host.Outcome State Fault Refusal :=
  accept s s

/-- `KEYUP coin` (R144). -/
def execKeyupCoin (s : State) : Host.Outcome State Fault Refusal :=
  accept s (releaseControl .coin s)

/-- `KEYUP player2-start` (R145). -/
def execKeyupPlayer2Start (s : State) : Host.Outcome State Fault Refusal :=
  accept s (releaseControl .player2Start s)

/-- `KEYUP player1-start` (R146). -/
def execKeyupPlayer1Start (s : State) : Host.Outcome State Fault Refusal :=
  accept s (releaseControl .player1Start s)

/-- `KEYUP tilt` (R147). -/
def execKeyupTilt (s : State) : Host.Outcome State Fault Refusal :=
  accept s (releaseControl .tilt s)

/-- `KEYUP fire` (R148). -/
def execKeyupFire (s : State) : Host.Outcome State Fault Refusal :=
  accept s (releaseControl .fire s)

/-- `KEYUP left` (R149). -/
def execKeyupLeft (s : State) : Host.Outcome State Fault Refusal :=
  accept s (releaseControl .left s)

/-- `KEYUP right` (R150). -/
def execKeyupRight (s : State) : Host.Outcome State Fault Refusal :=
  accept s (releaseControl .right s)

/-- `KEYUP quit` (R151): no effect (decision D16 of the spec, log 16). -/
def execKeyupQuit (s : State) : Host.Outcome State Fault Refusal :=
  accept s s

/-- `KEYUP` of a code that is no control (R152): ignored. -/
def execKeyupOther (_code : Byte) (s : State) : Host.Outcome State Fault Refusal :=
  accept s s

end Sys2Proof.Machine
end

