-- ==== Sys2Proof/Machine/Compositor.lean ====
section
/-! DEFINITION. The video compositor: `Composite(mem)`, performed only inside a POLL that fires.
Spec: `43_video_compositor.md` R180 to R188; `20_memory.md` R53, R54, R57, R58. -/

namespace Sys2Proof.Machine

/-- The address of the window byte of column `c`, byte-row `r` (R180). -/
def windowAddress (base c r : Nat) : Nat := base + c * bytesPerColumn + r

/-- Is the address in the VRAM window (R53)? -/
def inWindow (base a : Nat) : Bool := decide (base ≤ a) && decide (a < base + vramSize)

/-- The listed cells of the VRAM window; every other window byte reads as unlisted. -/
def windowCells (base : Nat) (mem : Memory) : Memory := mem.filter fun cell => inWindow base cell.1

/-- The listed cells of byte-row `r` of the window. -/
def rowCells (base : Nat) (win : Memory) (r : Nat) : Memory :=
  win.filter fun cell => (cell.1 - base) % bytesPerColumn == r

/-- Put a column number into a rising list of column numbers. -/
def insertColumn (c : Nat) : List Nat → List Nat
  | [] => [c]
  | d :: ds => if c < d then c :: d :: ds else if c = d then d :: ds else d :: insertColumn c ds

/-- The columns that have a listed cell, rising. -/
def columnsOf (base : Nat) (row : Memory) : List Nat :=
  row.foldr (fun cell cs => insertColumn ((cell.1 - base) / bytesPerColumn) cs) []

/-- The window bit that pixel `(x, y)` shows: with `n = 255 - y`, bit `n & 7` of byte-row `n >> 3` of
column `x` (R183). -/
def windowBit (base : Nat) (mem : Memory) (x y : Nat) : Bool :=
  (Memory.read mem (windowAddress base x ((screenHeight - 1 - y) / 8))).getLsbD ((screenHeight - 1 - y) % 8)

/-- Offset of the first byte of pixel `(x, y)`: row-major, pitch 896 (R54, R184, decision D12 of the
spec, log 11). -/
def pixelOffset (x y : Nat) : Nat := (y * screenWidth + x) * bytesPerPixel

/-- The four bytes of a lit pixel: all 0xFF (R184, decision D13 of the spec, log 11). A dark pixel's
four bytes are 0x00, which is what the buffer leaves unlisted. -/
def litPixel (x y : Nat) : FrameBuffer :=
  (List.range bytesPerPixel).map fun j => (pixelOffset x y + j, 0xFF)

/-- The lit pixels of buffer row `y`, given the listed cells of the byte-row it shows. -/
def compositeRow (base : Nat) (row : Memory) (y : Nat) : FrameBuffer :=
  (columnsOf base row).flatMap fun x => if windowBit base row x y then litPixel x y else []

/-- `Composite(mem)` in the closed form of R183: the whole buffer, a function of the window alone.
Buffer rows `8k` to `8k + 7` show byte-row `31 - k`; a column with no listed cell there is dark.
`Obligations.CompositeIsTheTripleLoop` says that this is R181. -/
def composite (base : Nat) (mem : Memory) : FrameBuffer :=
  (List.range bytesPerColumn).flatMap fun k =>
    (List.range 8).flatMap fun j =>
      compositeRow base (rowCells base (windowCells base mem) (bytesPerColumn - 1 - k)) (8 * k + j)

/-- `FbWrite(x, y, lit)` (R184): the four bytes of one pixel. -/
def fbWrite (fb : FrameBuffer) (x y : Nat) (lit : Bool) : FrameBuffer :=
  Memory.writeBytes fb (pixelOffset x y) (List.replicate bytesPerPixel (if lit then 0xFF else 0x00))

/-- `Composite(mem)` as R181 writes it: three loops of `FbWrite` over the buffer as it stands. -/
def compositeLoop (base : Nat) (mem : Memory) (fb : FrameBuffer) : FrameBuffer :=
  (List.range screenWidth).foldl (fun fb c =>
    (List.range bytesPerColumn).foldl (fun fb r =>
      (List.range 8).foldl (fun fb b =>
        fbWrite fb c ((screenHeight - 1) - (r * 8 + b))
          ((Memory.read mem (windowAddress base c r)).getLsbD b)) fb) fb) fb

/-- The abstract image `lit(x, y)` of a buffer (R183, R184): the pixel's bytes are 0xFF. -/
def lit (fb : FrameBuffer) (x y : Nat) : Bool := Memory.read fb (pixelOffset x y) == 0xFF

end Sys2Proof.Machine
end

