-- ==== Sys2Proof/Machine/Scheduler.lean ====
section
/-! DEFINITION. The frame scheduler and interrupt engine: POLL.
Spec: `44_frame_scheduler.md` R200 to R212; `60_exceptions.md` R224 to R230. -/

namespace Sys2Proof.Machine

/-- The due test (R201): `now - tickBase >= TICK_THRESHOLD`, on mathematical integers. -/
def isDue (s : State) : Bool :=
  decide ((s.params.tickThreshold : Int) ≤ (s.now : Int) - (s.tickBase : Int))

/-- Redraw (R204): `frameBuffer <- Composite(mem)`, then emit it. -/
def redraw (s : State) : State :=
  { s with
    frameBuffer := composite s.params.vramBase s.mem
    out := s.out ++ [.frame (composite s.params.vramBase s.mem)] }

/-- What a fired poll does before the baseline (R203, R204): the interrupt, synchronously delivered,
then the redraw from the memory as the delivery leaves it (decision D17 of the spec, log 15). -/
def fireTick (s : State) : State := redraw (deliverInterrupt s)

/-- The gate (R202): a due poll with the flag false does nothing but the baseline. -/
def dueTick (s : State) : State := if s.inte then fireTick s else s

/-- The baseline (R205): `tickBase <- now`. -/
def resetBaseline (s : State) : State := { s with tickBase := s.now }

/-- `POLL` (R206): the operands `now`, `inte` and `mem` are the fields of those names (R90, R200; log 28). -/
def execPoll (s : State) : Host.Outcome State Fault Refusal :=
  accept s (if isDue s then resetBaseline (dueTick s) else s)

/-- The untimed POLL of R211: `due` is an input and there is no baseline. -/
def execPollUntimed (due : Bool) (s : State) : Host.Outcome State Fault Refusal :=
  accept s (if due then dueTick s else s)

end Sys2Proof.Machine
end

