-- ==== Sys2Proof/Machine/ShiftRegister.lean ====
section
/-! DEFINITION. The shift register: OUT 2, OUT 4, IN 3. Spec: `40_shift_register.md` R110 to R116. -/

namespace Sys2Proof.Machine

/-- `OUT 2, v` (R110): `shiftOffset <- v[2:0]`. -/
def execOut2 (v : Byte) (s : State) : Host.Outcome State Fault Refusal :=
  accept s { s with shiftOffset := offsetField v }

/-- `OUT 4, v` (R111): `shiftLow <- shiftHigh ; shiftHigh <- v`. -/
def execOut4 (v : Byte) (s : State) : Host.Outcome State Fault Refusal :=
  accept s { s with shiftLow := s.shiftHigh, shiftHigh := v }

/-- `IN 3` (R112): reply with the 8-bit window of the 16-bit shift value. -/
def execIn3 (s : State) : Host.Outcome State Fault Refusal :=
  accept s (s.emit [.reply (shiftWindow s.shiftHigh s.shiftLow s.shiftOffset)])

end Sys2Proof.Machine
end

