-- ==== Sys2Proof/Machine/Sound.lean ====
section
/-! DEFINITION. The sound edge detector: OUT 3, OUT 5, OUT other.
Spec: `42_sound_edge_detector.md` R160 to R168. -/

namespace Sys2Proof.Machine

/-- `OUT 3, v` (R161): a clip for each rising mapped line, then the whole byte is latched. -/
def execOut3 (v : Byte) (s : State) : Host.Outcome State Fault Refusal :=
  accept s { s.emit (clipEvents soundMap3 v s.lastSoundPort3) with lastSoundPort3 := v }

/-- `OUT 5, v` (R162): a clip for each rising mapped line, then the whole byte is latched. -/
def execOut5 (v : Byte) (s : State) : Host.Outcome State Fault Refusal :=
  accept s { s.emit (clipEvents soundMap5 v s.lastSoundPort5) with lastSoundPort5 := v }

/-- `OUT port, v` on any other port (R163): ignored. -/
def execOutOther (_port _v : Byte) (s : State) : Host.Outcome State Fault Refusal :=
  accept s s

end Sys2Proof.Machine
end

