-- ==== Sys2Proof/Machine/Dispatch.lean ====
section
/-! DEFINITION. One arm per transaction: which meaning each has. Spec: `30_encoding.md` R84, R86, R92. -/

namespace Sys2Proof.Machine

def exec (i : Instr) (s : State) : Host.Outcome State Fault Refusal :=
  match i with
  | .in1 => Sys2Proof.Machine.execIn1 s
  | .in2 => Sys2Proof.Machine.execIn2 s
  | .in3 => Sys2Proof.Machine.execIn3 s
  | .inOther port => Sys2Proof.Machine.execInOther port s
  | .out2 v => Sys2Proof.Machine.execOut2 v s
  | .out3 v => Sys2Proof.Machine.execOut3 v s
  | .out4 v => Sys2Proof.Machine.execOut4 v s
  | .out5 v => Sys2Proof.Machine.execOut5 v s
  | .outOther port v => Sys2Proof.Machine.execOutOther port v s
  | .keyupCoin => Sys2Proof.Machine.execKeyupCoin s
  | .keyupPlayer2Start => Sys2Proof.Machine.execKeyupPlayer2Start s
  | .keyupPlayer1Start => Sys2Proof.Machine.execKeyupPlayer1Start s
  | .keyupTilt => Sys2Proof.Machine.execKeyupTilt s
  | .keyupFire => Sys2Proof.Machine.execKeyupFire s
  | .keyupLeft => Sys2Proof.Machine.execKeyupLeft s
  | .keyupRight => Sys2Proof.Machine.execKeyupRight s
  | .keyupQuit => Sys2Proof.Machine.execKeyupQuit s
  | .keyupOther code => Sys2Proof.Machine.execKeyupOther code s
  | .keydownCoin => Sys2Proof.Machine.execKeydownCoin s
  | .keydownPlayer2Start => Sys2Proof.Machine.execKeydownPlayer2Start s
  | .keydownPlayer1Start => Sys2Proof.Machine.execKeydownPlayer1Start s
  | .keydownTilt => Sys2Proof.Machine.execKeydownTilt s
  | .keydownFire => Sys2Proof.Machine.execKeydownFire s
  | .keydownLeft => Sys2Proof.Machine.execKeydownLeft s
  | .keydownRight => Sys2Proof.Machine.execKeydownRight s
  | .keydownQuit => Sys2Proof.Machine.execKeydownQuit s
  | .keydownOther code => Sys2Proof.Machine.execKeydownOther code s
  | .poll => Sys2Proof.Machine.execPoll s

end Sys2Proof.Machine
end

