-- ==== Sys2Proof/Machine/Moves.lean ====
section
/-! DEFINITION. What one move of an outside agent does, and how the next move is taken.
Spec: `70_reset_and_hazards.md` R271; `30_encoding.md` R81, R91; `44_frame_scheduler.md` R208;
`60_exceptions.md` R221. -/

namespace Sys2Proof.Machine

/-- Who issues a transaction (R81). -/
inductive Issuer where
  | cpu
  | operator
  | mainLoop
deriving DecidableEq, Repr

/-- The issuer of each transaction (R81). -/
def issuerOf : Instr → Issuer
  | .in1 | .in2 | .in3 | .inOther _ => .cpu
  | .out2 _ | .out3 _ | .out4 _ | .out5 _ | .outOther _ _ => .cpu
  | .keyupCoin | .keyupPlayer2Start | .keyupPlayer1Start | .keyupTilt => .operator
  | .keyupFire | .keyupLeft | .keyupRight | .keyupQuit | .keyupOther _ => .operator
  | .keydownCoin | .keydownPlayer2Start | .keydownPlayer1Start | .keydownTilt => .operator
  | .keydownFire | .keydownLeft | .keydownRight | .keydownQuit | .keydownOther _ => .operator
  | .poll => .mainLoop

/-- The part of an iteration in which an agent issues transactions (R208): the operator's key events and
the POLL before the CPU step, the CPU's port transactions inside it. -/
def Issuer.turn : Issuer → Turn
  | .operator | .mainLoop => .events
  | .cpu => .cpuStep

/-- Where the iteration stands after a transaction (R208): the one POLL is followed by the CPU step. -/
def Issuer.turnAfter : Issuer → Turn
  | .operator => .events
  | .mainLoop | .cpu => .cpuStep

/-- A move belongs to one part of the iteration and is presented in no other (R208, R271, log 29). -/
def inTurn (turn : Turn) (s : State) (o : Host.Outcome State Fault Refusal) :
    Host.Outcome State Fault Refusal :=
  if s.turn = turn then o else .refused .outOfTurn

/-- A presented word is decoded and runs in its part of the iteration; a word of a reserved class is
refused (R91). -/
def runWord (w : Word) (s : State) : Host.Outcome State Fault Refusal :=
  match decode w with
  | .ok i => inTurn (issuerOf i).turn s (exec i { s with turn := (issuerOf i).turnAfter })
  | .error (.reservedClass cls) => .refused (.reservedClass cls)

/-- A CPU store: the array has `MEM_SIZE` bytes (`20_memory.md` R50). -/
def storeByte (address : Nat) (v : Byte) (s : State) : Host.Outcome State Fault Refusal :=
  if address < s.params.memSize then .next { s with mem := Memory.write s.mem address v }
  else .fault (.addressOutsideMemory address)

/-- The CPU's deliveries store these bytes from now on, each inside the memory array (log 15). -/
def setDelivery (stores : List Host.Cell) (s : State) : Host.Outcome State Fault Refusal :=
  match stores.find? fun c => decide (s.params.memSize ≤ c.1) with
  | some c => .fault (.addressOutsideMemory c.1)
  | none => .next { s with deliveryStores := stores }

/-- One move (R271). The CPU stores, changes its flag, fails and returns inside its own `step()` only. -/
def runMove (m : Move) (s : State) : Host.Outcome State Fault Refusal :=
  whenAccepted s <|
    match m with
    | .transaction w => runWord w s
    | .timebase t => .next { s with now := t }
    | .cpuStore address v => inTurn .cpuStep s (storeByte address v s)
    | .cpuInte flag => inTurn .cpuStep s (.next { s with inte := flag })
    | .cpuDelivery stores => setDelivery stores s
    | .cpuInvalid instructionByte address => inTurn .cpuStep s (.next (failRun instructionByte address s))
    | .cpuStepDone => inTurn .cpuStep s (.next { s with turn := .events })

/-- Take the next move from the head of `moves`. With none to come the block stands as it is: nothing
sequences it but what is presented to it (`10_state.md` R34, log 2). -/
def takeMove (s : State) : Host.Outcome State Fault Refusal :=
  match s.moves with
  | [] => accept s s
  | m :: rest => runMove m { s with moves := rest }

/-- The transaction word of a table number: its low 20 bits (log 3). -/
def tableWord (nbits w : Nat) : Word := BitVec.ofNat 20 (w % 2 ^ nbits)

/-- The part of the iteration in which a word runs; a word that stands for no transaction has none. -/
def turnForWord (w : Word) (otherwise : Turn) : Turn :=
  match decode w with
  | .ok i => (issuerOf i).turn
  | .error _ => otherwise

end Sys2Proof.Machine
end

