-- ==== Sys2Proof/Machine/Step.lean ====
section
/-! DEFINITION. One step: one move, atomic (`00_scope.md` R9, `20_memory.md` R60). -/

namespace Sys2Proof.Machine

/-- One step of the machine: take the next move and run it. -/
def step (s : State) : Host.Outcome State Fault Refusal := takeMove s

/-- `s` with the transaction word of a table number presented next, at the part of the iteration to which
the word belongs (logs 1, 29). -/
def State.withFetchWord (s : State) (nbits w : Nat) : State :=
  { s with
    moves := .transaction (tableWord nbits w) :: s.moves
    turn := turnForWord (tableWord nbits w) s.turn }

end Sys2Proof.Machine
end

