-- ==== Sys2Proof/Machine/Boot.lean ====
section
/-! DEFINITION. The bootstrap, the agent that creates the state before the loop starts, and the fatal
startup failures. Spec: `60_exceptions.md` R220; `70_reset_and_hazards.md` R250, R256 to R260. -/

namespace Sys2Proof.Machine

/-- The four causes of a fatal startup failure (R220). -/
inductive StartupFailure where
  | multimediaInit
  | displayCreate
  | clipOpen
  | romRead
deriving DecidableEq, Repr

/-- The four ROM images, in the order of their offsets (R256). Their contents are not in the source. -/
structure RomImages where
  rom0000 : List Byte
  rom0800 : List Byte
  rom1000 : List Byte
  rom1800 : List Byte
deriving DecidableEq, Repr

/-- How the bootstrap ends. -/
inductive BootResult where
  /-- The loop starts in this state. -/
  | started (s : State)
  /-- The process aborts: the run never starts (R220). -/
  | aborted (f : StartupFailure)
  /-- R8 excludes the configuration, or an image does not fit the memory (log 26). -/
  | refused
deriving DecidableEq, Repr

/-- Load the images at 0x0000, 0x0800, 0x1000 and 0x1800, in that order (R256, log 26). -/
def loadRoms (m : Memory) (roms : RomImages) : Memory :=
  Memory.writeBytes
    (Memory.writeBytes
      (Memory.writeBytes
        (Memory.writeBytes m 0x0000 roms.rom0000) 0x0800 roms.rom0800) 0x1000 roms.rom1000) 0x1800 roms.rom1800

/-- Every image ends within the memory array. -/
def romsFit (size : Nat) (roms : RomImages) : Bool :=
  decide (0x0000 + roms.rom0000.length ≤ size) && decide (0x0800 + roms.rom0800.length ≤ size) &&
    decide (0x1000 + roms.rom1000.length ≤ size) && decide (0x1800 + roms.rom1800.length ≤ size)

/-- The bootstrap: with a startup failure the run never starts (R220); else the state is created at its
reset values over a memory that holds the images (R250, R256, R258). -/
def bootstrap (p : Params) (e : Surroundings) (roms : RomImages) (failure : Option StartupFailure) :
    BootResult :=
  match failure with
  | some f => .aborted f
  | none =>
    if configurationOk p && romsFit p.memSize roms && decide (e.clipTable.length = clipCount) then
      .started (State.resetWith p { e with mem := loadRoms e.mem roms })
    else .refused

end Sys2Proof.Machine
end

