-- ==== Sys2Proof/Machine/Loop.lean ====
section
/-! DEFINITION. The main loop: which moves one iteration presents, and in which order, the loop that repeats
iterations while `run = Running`, and runs of several transactions. Spec: `44_frame_scheduler.md` R208;
`70_reset_and_hazards.md` R261, R271. The step keeps the order (`inTurn`, log 29). -/

namespace Sys2Proof.Machine

/-- A key event: press or release of a control code (R208 (1)). -/
structure KeyEvent where
  down : Bool
  code : Byte
deriving DecidableEq, Repr

/-- What one CPU `step()` may do (R208 (3), R271). -/
inductive CpuAction where
  | input (port : Byte)
  | output (port : Byte) (v : Byte)
  | store (address : Nat) (v : Byte)
  | setInte (flag : Bool)
  | invalidInstruction (instructionByte : Byte) (address : Nat)
deriving DecidableEq, Repr

/-- One main-loop iteration: key events in arrival order, the timebase sample of its one POLL, what the
CPU stores if that POLL delivers an interrupt, and the actions of one CPU step (R208). -/
structure Iteration where
  keys : List KeyEvent
  now : Nat
  deliveryStores : List Host.Cell
  cpu : List CpuAction
deriving DecidableEq, Repr

/-- The word of a key event (R81, R82). -/
def KeyEvent.move (k : KeyEvent) : Move :=
  .transaction (if k.down then mkWord 3 k.code 0 else mkWord 2 k.code 0)

/-- The move of a CPU action. -/
def CpuAction.move : CpuAction → Move
  | .input port => .transaction (mkWord 0 port 0)
  | .output port v => .transaction (mkWord 1 port v)
  | .store address v => .cpuStore address v
  | .setInte flag => .cpuInte flag
  | .invalidInstruction instructionByte address => .cpuInvalid instructionByte address

/-- The moves of the iteration's key events (R208 (1)). -/
def Iteration.keyMoves (it : Iteration) : List Move := it.keys.map KeyEvent.move

/-- The one POLL with its side inputs (R208 (2)). -/
def Iteration.pollMoves (it : Iteration) : List Move :=
  [.timebase it.now, .cpuDelivery it.deliveryStores, .transaction (mkWord 4 0 0)]

/-- The actions of the CPU step (R208 (3)). -/
def Iteration.cpuMoves (it : Iteration) : List Move := it.cpu.map CpuAction.move

/-- The moves of one iteration: key events, then exactly one POLL, then one CPU step, which returns
(R208). -/
def Iteration.moves (it : Iteration) : List Move :=
  it.keyMoves ++ it.pollMoves ++ it.cpuMoves ++ [.cpuStepDone]

/-- Continue with `f` from the next state of an outcome, if it is one. -/
def andThen (o : Host.Outcome State Fault Refusal) (f : State → Host.Outcome State Fault Refusal) :
    Host.Outcome State Fault Refusal :=
  match o with
  | .next t => f t
  | .fault r => .fault r
  | .refused r => .refused r

/-- Run transactions in order. -/
def execAll : List Instr → State → Host.Outcome State Fault Refusal
  | [], s => .next s
  | i :: rest, s => andThen (exec i s) (execAll rest)

/-- Present moves in order while `run = Running`: once stopped, what is left is not performed (R208, R261,
decision D16 of the spec, log 16). -/
def runMoves : List Move → State → Host.Outcome State Fault Refusal
  | [], s => .next s
  | m :: rest, s =>
    match s.run with
    | .running => andThen (runMove m s) (runMoves rest)
    | .stopped => .next s

/-- The main loop over the iterations that the surroundings supply: it repeats while `run = Running`, and
ends where the run stops (R208, R261). -/
def mainLoop : List Iteration → State → Host.Outcome State Fault Refusal
  | [], s => .next s
  | it :: rest, s =>
    match s.run with
    | .running => andThen (runMoves it.moves s) (mainLoop rest)
    | .stopped => .next s

end Sys2Proof.Machine
end

