-- ==== Sys2Proof/Safety.lean ====
section
/-! DEFINITION. The terms in which the statements speak: what a run has emitted, the invariant of every
reachable state, and views of a state. Spec: `10_state.md` R37; `44_frame_scheduler.md` R203, R204. -/

namespace Sys2Proof.Machine

/-- The interrupt vectors among the events, in order. -/
def vectorsOf (events : List Event) : List IrqVector :=
  events.filterMap fun e => match e with
    | .interrupt v => some v
    | .reply _ | .clip _ | .frame _ => none

/-- The frames among the events, in order. -/
def framesOf (events : List Event) : List FrameBuffer :=
  events.filterMap fun e => match e with
    | .frame fb => some fb
    | .reply _ | .clip _ | .interrupt _ => none

/-- The clips among the events, in order. -/
def clipsOf (events : List Event) : List (Fin 9) :=
  events.filterMap fun e => match e with
    | .clip k => some k
    | .reply _ | .frame _ | .interrupt _ => none

/-- The phase after `n` fired polls from reset (R37e). -/
def phaseAfter (n : Nat) : Phase := if n % 2 = 0 then .mid else .fin

/-- The first `n` vectors of a run: 1, 2, 1, 2, … (R203). -/
def alternation (n : Nat) : List IrqVector := (List.range n).map fun k => (phaseAfter k).vector

/-- The canonical form of a frame buffer: that of a memory of 229376 bytes (R30, R37b). -/
def FrameBuffer.wf (fb : FrameBuffer) : Bool := Memory.wf fb && Memory.within fb frameBufferSize

/-- The invariant of every reachable state. -/
structure Inv (s : State) : Prop where
  /-- The memory is in canonical form and has no byte outside the array. -/
  memWf : Memory.wf s.mem
  memWithin : Memory.within s.mem s.params.memSize
  /-- A delivery stores inside the array. -/
  deliveryWithin : Memory.within s.deliveryStores s.params.memSize
  /-- R37b: the size of the frame buffer never changes. -/
  frameBufferWf : FrameBuffer.wf s.frameBuffer
  /-- R37c: the clip table has nine entries. -/
  clipTableSize : s.clipTable.length = clipCount
  /-- R37d: the undriven bits equal their reset values. -/
  undriven1 : s.inputPort1 &&& undrivenMask1 = s.params.port1SwitchDefault &&& undrivenMask1
  undriven2 : s.inputPort2 &&& undrivenMask2 = s.params.port2SwitchDefault &&& undrivenMask2
  /-- R37e: the phase is the parity of the polls that fired. -/
  phaseParity : s.phase = phaseAfter (vectorsOf s.out).length
  /-- R203: the vectors alternate, vector 1 first. -/
  vectorsAlternate : vectorsOf s.out = alternation (vectorsOf s.out).length
  /-- R204: one frame for each interrupt. -/
  framePerInterrupt : (framesOf s.out).length = (vectorsOf s.out).length

/-- Moves during which the timebase never runs backwards from `t` (R200, R271). -/
def monotoneFrom : Nat → List Move → Bool
  | _, [] => true
  | t, .timebase u :: rest => decide (t ≤ u) && monotoneFrom u rest
  | t, .transaction _ :: rest => monotoneFrom t rest
  | t, .cpuStore _ _ :: rest => monotoneFrom t rest
  | t, .cpuInte _ :: rest => monotoneFrom t rest
  | t, .cpuDelivery _ :: rest => monotoneFrom t rest
  | t, .cpuInvalid _ _ :: rest => monotoneFrom t rest
  | t, .cpuStepDone :: rest => monotoneFrom t rest

/-- A state in which the block accepts moves: an allowed configuration (R8), and the loop running
(R261). -/
def Accepting (s : State) : Prop := configurationOk s.params = true ∧ s.run = .running

/-- The outcome with `f` applied to its next state. -/
def mapNext (f : State → State) : Host.Outcome State Fault Refusal → Host.Outcome State Fault Refusal
  | .next t => .next (f t)
  | .fault r => .fault r
  | .refused r => .refused r

/-- The state with other sound latches (R26, R27). -/
def withSoundLatches (last3 last5 : Byte) (s : State) : State :=
  { s with lastSoundPort3 := last3, lastSoundPort5 := last5 }

/-- The state with other shift latches (R23 to R25). -/
def withShiftLatches (lo hi : Byte) (offset : BitVec 3) (s : State) : State :=
  { s with shiftLow := lo, shiftHigh := hi, shiftOffset := offset }

/-- The state with other input ports (R21, R22). -/
def withInputPorts (port1 port2 : Byte) (s : State) : State :=
  { s with inputPort1 := port1, inputPort2 := port2 }

/-- The poll is due and the flag is true: it fires (R203). -/
def Fires (s : State) : Prop :=
  (s.params.tickThreshold : Int) ≤ (s.now : Int) - (s.tickBase : Int) ∧ s.inte = true

/-- The move is a POLL. -/
def isPollMove : Move → Bool
  | .transaction w => match decode w with
    | .ok i => decide (i = .poll)
    | .error _ => false
  | .timebase _ | .cpuStore _ _ | .cpuInte _ | .cpuDelivery _ | .cpuInvalid _ _ | .cpuStepDone => false

/-- The move ends a CPU step. -/
def isStepDone (m : Move) : Bool := decide (m = .cpuStepDone)

/-- 1 inside the CPU's `step()`, 0 outside it: the POLLs whose CPU step is still to end. -/
def openSteps : Turn → Nat
  | .events => 0
  | .cpuStep => 1

/-- The key event is the press of quit (R141). -/
def KeyEvent.isQuit (k : KeyEvent) : Bool := k.down && decide (k.code = 0x07)

/-- The CPU action lets `step()` return, with a memory of `size` bytes. -/
def CpuAction.returns (size : Nat) : CpuAction → Bool
  | .input _ | .output _ _ | .setInte _ => true
  | .store address _ => decide (address < size)
  | .invalidInstruction _ _ => false

/-- An image loaded at `offset` covers the address. -/
def covers (offset : Nat) (image : List Byte) (a : Nat) : Prop := offset ≤ a ∧ a < offset + image.length

end Sys2Proof.Machine
end

