-- ==== Sys2Proof/Certificates/Slice0/Obligations.lean ====
section
/-! DEFINITION. The statements for the provers, in the order of OBLIGATIONS.json. Each docstring names the
rule of the spec it rests on, or the model's choice and its log entry. -/

open Sys2Proof Sys2Proof.Machine

/-! ### Encoding -/

/-- `30_encoding.md` section 1, 2, 3 (the binary form is the spec's decision D1, log 3): words written out
bit by bit from the field table `class[19:16] sel[15:8] data[7:0]` decode to what they stand for. -/
def Obligations.SpecWordsDecode : Prop :=
  decode 0b0000_00000001_00000000#20 = .ok .in1 ∧
  decode 0b0000_00000011_11111111#20 = .ok .in3 ∧
  decode 0b0000_00000000_00000000#20 = .ok (.inOther 0x00) ∧
  decode 0b0001_00000010_11111111#20 = .ok (.out2 0xFF) ∧
  decode 0b0001_00000100_10101010#20 = .ok (.out4 0xAA) ∧
  decode 0b0001_00000110_00000000#20 = .ok (.outOther 0x06 0x00) ∧
  decode 0b0010_00000111_00000000#20 = .ok .keyupQuit ∧
  decode 0b0010_00001000_00000000#20 = .ok (.keyupOther 0x08) ∧
  decode 0b0011_00000011_00000000#20 = .ok .keydownTilt ∧
  decode 0b0100_10101011_11001101#20 = .ok .poll ∧
  decode 0b1111_11111111_11111111#20 = .error (.reservedClass 0xF)

/-- Decoding the canonical encoding of a transaction gives it back, at every value of its operands
(decision D1 and D19 of the spec, log 3, 4). -/
def Obligations.DecodeOfEncode : Prop :=
  ∀ i : Instr, WellFormed i = true → decode (encode i) = .ok i

/-- What the decoder reads is a transaction of the table, and re-encoding it keeps every bit of the word
that is not a don't-care field (R83; decision D1, D19 of the spec, log 3, 4). -/
def Obligations.EncodeOfDecode : Prop :=
  ∀ (w : Word) (i : Instr), decode w = .ok i →
    WellFormed i = true ∧ (encode i).cls = w.cls ∧
      (w.cls.toNat ≤ 3 → (encode i).sel = w.sel) ∧ (w.cls = 1 → (encode i).data = w.data)

/-- The decoder is the opcode table with the longest mask first; a word no row fits is refused (R92;
decision D1 of the spec). -/
def Obligations.DecoderFollowsOpcodeTable : Prop :=
  (∀ (w : Word) (i : Instr), decode w = .ok i →
    ∃ row ∈ opcodeTable, row.fits w = true ∧ row.mnemonic = mnemonicOf i ∧
      ∀ other ∈ opcodeTable, other.fits w = true → other.mask = 0xFFF00 → other = row) ∧
  (∀ (w : Word) (e : DecodeError), decode w = .error e → ∀ row ∈ opcodeTable, row.fits w = false)

/-- Classes 0 to 4 always decode; classes 5 to 15 are refused by name, and a step on such a word stops
with that refusal (decision D18 of the spec, log 18). -/
def Obligations.ReservedClassesRefused : Prop :=
  ∀ w : Word,
    (w.cls.toNat ≤ 4 → ∃ i, decode w = .ok i) ∧
    (5 ≤ w.cls.toNat →
      decode w = .error (.reservedClass w.cls) ∧
      ∀ (s : State) (rest : List Move), Accepting s → s.moves = .transaction w :: rest →
        step s = .refused (.reservedClass w.cls))

/-! ### Steps -/

/-- A step runs the decoded transaction: when the oldest move is a word that decodes to `i`, in the part of
the iteration to which `i` belongs, the step is `exec i` after the word is taken and the iteration moved on
(the queue of moves and the place in the iteration are the model's choice, logs 1, 29; out of its part
the word is refused: `OutOfTurnMovesRefused`); and a table word placed with `withFetchWord` is run by the
next step. -/
def Obligations.StepRunsDecodedTransaction : Prop :=
  (∀ (s : State) (w : Word) (i : Instr) (rest : List Move),
    Accepting s → s.moves = .transaction w :: rest → decode w = .ok i → s.turn = (issuerOf i).turn →
      step s = exec i { s with moves := rest, turn := (issuerOf i).turnAfter }) ∧
  (∀ (s : State) (nbits w : Nat) (i : Instr),
    Accepting s → decodeTableWord nbits w = some i →
      step (s.withFetchWord nbits w) = exec i { s with turn := (issuerOf i).turnAfter })

/-- The other moves of the outside agents (log 1): the timebase shows a time, the CPU's delivery changes what
it stores, and inside its `step()` the CPU changes its flag or returns (log 29); with no move to come the
block stands as it is (log 2). -/
def Obligations.StepRunsOtherMoves : Prop :=
  ∀ (s : State) (rest : List Move), Accepting s →
    (s.moves = [] → step s = .next s) ∧
    (∀ t, s.moves = .timebase t :: rest → step s = .next { s with now := t, moves := rest }) ∧
    (∀ b, s.turn = .cpuStep → s.moves = .cpuInte b :: rest →
      step s = .next { s with inte := b, moves := rest }) ∧
    (s.turn = .cpuStep → s.moves = .cpuStepDone :: rest →
      step s = .next { s with turn := .events, moves := rest }) ∧
    (∀ d, Memory.within d s.params.memSize = true → s.moves = .cpuDelivery d :: rest →
      step s = .next { s with deliveryStores := d, moves := rest })

/-- A CPU store, inside the CPU's `step()` (log 29), changes the byte it names and no other byte, keeps the canonical form and changes nothing
else; a store outside the array stops (logs 13, 23). -/
def Obligations.CpuStoreChangesOneByte : Prop :=
  ∀ (s : State) (a : Nat) (v : Byte) (rest : List Move),
    Accepting s → s.turn = .cpuStep → Memory.wf s.mem = true → s.moves = .cpuStore a v :: rest →
      (a < s.params.memSize →
        ∃ m, step s = .next { s with mem := m, moves := rest } ∧ Memory.wf m = true ∧
          ∀ b, Memory.read m b = if b = a then v else Memory.read s.mem b) ∧
      (s.params.memSize ≤ a → step s = .fault (.addressOutsideMemory a))

/-! ### Port reads -/

/-- R130, R131, R132. -/
def Obligations.PortReadsReply : Prop :=
  ∀ (s : State) (d : Byte), Accepting s →
    (decode (mkWord 0 0x01 d) = .ok .in1 ∧
      exec .in1 s = .next { s with out := s.out ++ [.reply s.inputPort1] }) ∧
    (decode (mkWord 0 0x02 d) = .ok .in2 ∧
      exec .in2 s = .next { s with out := s.out ++ [.reply s.inputPort2] }) ∧
    (∀ port : Byte, port ≠ 1 → port ≠ 2 → port ≠ 3 →
      decode (mkWord 0 port d) = .ok (.inOther port) ∧
      exec (.inOther port) s = .next { s with out := s.out ++ [.reply 0x00] })

/-! ### The shift register -/

/-- R112: the reply is the 16-bit value shifted right by `8 - shiftOffset`, cut to 8 bits, said on
numbers; no state changes. -/
def Obligations.In3RepliesShiftWindow : Prop :=
  ∀ (s : State) (d : Byte), Accepting s →
    decode (mkWord 0 0x03 d) = .ok .in3 ∧
    ∃ r : Byte, exec .in3 s = .next { s with out := s.out ++ [.reply r] } ∧
      r.toNat = (s.shiftHigh.toNat * 256 + s.shiftLow.toNat) / 2 ^ (8 - s.shiftOffset.toNat) % 256

/-- R110. -/
def Obligations.Out2SetsShiftOffset : Prop :=
  ∀ (s : State) (v : Byte), Accepting s →
    decode (mkWord 1 0x02 v) = .ok (.out2 v) ∧
    ∃ o : BitVec 3, exec (.out2 v) s = .next { s with shiftOffset := o } ∧ o.toNat = (v &&& 0x07).toNat

/-- R111. -/
def Obligations.Out4ShiftsByteIn : Prop :=
  ∀ (s : State) (v : Byte), Accepting s →
    decode (mkWord 1 0x04 v) = .ok (.out4 v) ∧
    exec (.out4 v) s = .next { s with shiftLow := s.shiftHigh, shiftHigh := v }

/-- `40_shift_register.md` section 2: reply bit `i` of IN 3 is bit `i + 8 - o` of the 16-bit value, and the
byte form `(shiftHigh << o) | (shiftLow >> (8 - o))`. -/
def Obligations.In3WindowEquivalentForms : Prop :=
  ∀ (s t : State), exec .in3 s = .next t →
    ∃ r : Byte, t.out = s.out ++ [.reply r] ∧
      r = (s.shiftHigh <<< s.shiftOffset.toNat) ||| (s.shiftLow >>> (8 - s.shiftOffset.toNat)) ∧
      ∀ i < 8, r.getLsbD i = (s.shiftHigh ++ s.shiftLow).getLsbD (i + 8 - s.shiftOffset.toNat)

/-- `40_shift_register.md` section 2: two OUT 4, one OUT 2, one IN 3, from every prior state. -/
def Obligations.TwoSerialWritesThenRead : Prop :=
  ∀ (s : State) (v1 v2 : Byte) (offset : Nat), Accepting s → offset < 8 →
    ∃ (t : State) (r : Byte),
      execAll [.out4 v1, .out4 v2, .out2 (BitVec.ofNat 8 offset), .in3] s = .next t ∧
      t.out = s.out ++ [.reply r] ∧ r.toNat = (v2.toNat * 256 + v1.toNat) / 2 ^ (8 - offset) % 256

/-- `40_shift_register.md` section 2, isolation: OUT 2 reads and writes the offset only, OUT 4 does not touch
the offset nor read the low latch, IN 3 writes none, and every other transaction neither reads nor
writes the three latches. -/
def Obligations.ShiftLatchesIsolated : Prop :=
  ∀ (s : State) (lo hi : Byte) (o : BitVec 3),
    (∀ i : Instr, i ≠ .in3 → (∀ v, i ≠ .out2 v) → (∀ v, i ≠ .out4 v) →
      exec i (withShiftLatches lo hi o s) = mapNext (withShiftLatches lo hi o) (exec i s)) ∧
    (∀ v t, exec (.out2 v) s = .next t →
      exec (.out2 v) (withShiftLatches lo hi o s) = .next (withShiftLatches lo hi t.shiftOffset t)) ∧
    (∀ v t, exec (.out4 v) s = .next t →
      exec (.out4 v) (withShiftLatches lo s.shiftHigh o s) =
        .next (withShiftLatches t.shiftLow t.shiftHigh o t)) ∧
    (∀ t, exec .in3 s = .next t →
      t.shiftLow = s.shiftLow ∧ t.shiftHigh = s.shiftHigh ∧ t.shiftOffset = s.shiftOffset)

/-! ### The input port latch -/

/-- R133 to R140. -/
def Obligations.KeydownSetsControlBits : Prop :=
  ∀ (s : State) (d : Byte), Accepting s →
    (decode (mkWord 3 0x00 d) = .ok .keydownCoin ∧
      exec .keydownCoin s = .next { s with inputPort1 := s.inputPort1 ||| 0x01 }) ∧
    (decode (mkWord 3 0x01 d) = .ok .keydownPlayer2Start ∧
      exec .keydownPlayer2Start s = .next { s with inputPort1 := s.inputPort1 ||| 0x02 }) ∧
    (decode (mkWord 3 0x02 d) = .ok .keydownPlayer1Start ∧
      exec .keydownPlayer1Start s = .next { s with inputPort1 := s.inputPort1 ||| 0x04 }) ∧
    (decode (mkWord 3 0x03 d) = .ok .keydownTilt ∧
      exec .keydownTilt s = .next { s with inputPort2 := s.inputPort2 ||| 0x04 }) ∧
    (decode (mkWord 3 0x04 d) = .ok .keydownFire ∧
      exec .keydownFire s =
        .next { s with inputPort1 := s.inputPort1 ||| 0x10, inputPort2 := s.inputPort2 ||| 0x10 }) ∧
    (decode (mkWord 3 0x05 d) = .ok .keydownLeft ∧
      exec .keydownLeft s =
        .next { s with inputPort1 := s.inputPort1 ||| 0x20, inputPort2 := s.inputPort2 ||| 0x20 }) ∧
    (decode (mkWord 3 0x06 d) = .ok .keydownRight ∧
      exec .keydownRight s =
        .next { s with inputPort1 := s.inputPort1 ||| 0x40, inputPort2 := s.inputPort2 ||| 0x40 })

/-- R143 to R150. -/
def Obligations.KeyupClearsControlBits : Prop :=
  ∀ (s : State) (d : Byte), Accepting s →
    (decode (mkWord 2 0x00 d) = .ok .keyupCoin ∧
      exec .keyupCoin s = .next { s with inputPort1 := s.inputPort1 &&& 0xFE }) ∧
    (decode (mkWord 2 0x01 d) = .ok .keyupPlayer2Start ∧
      exec .keyupPlayer2Start s = .next { s with inputPort1 := s.inputPort1 &&& 0xFD }) ∧
    (decode (mkWord 2 0x02 d) = .ok .keyupPlayer1Start ∧
      exec .keyupPlayer1Start s = .next { s with inputPort1 := s.inputPort1 &&& 0xFB }) ∧
    (decode (mkWord 2 0x03 d) = .ok .keyupTilt ∧
      exec .keyupTilt s = .next { s with inputPort2 := s.inputPort2 &&& 0xFB }) ∧
    (decode (mkWord 2 0x04 d) = .ok .keyupFire ∧
      exec .keyupFire s =
        .next { s with inputPort1 := s.inputPort1 &&& 0xEF, inputPort2 := s.inputPort2 &&& 0xEF }) ∧
    (decode (mkWord 2 0x05 d) = .ok .keyupLeft ∧
      exec .keyupLeft s =
        .next { s with inputPort1 := s.inputPort1 &&& 0xDF, inputPort2 := s.inputPort2 &&& 0xDF }) ∧
    (decode (mkWord 2 0x06 d) = .ok .keyupRight ∧
      exec .keyupRight s =
        .next { s with inputPort1 := s.inputPort1 &&& 0xBF, inputPort2 := s.inputPort2 &&& 0xBF })

/-- R142, R152. -/
def Obligations.UnrecognisedControlsIgnored : Prop :=
  ∀ (s : State) (code d : Byte), Accepting s → 8 ≤ code.toNat →
    decode (mkWord 3 code d) = .ok (.keydownOther code) ∧ exec (.keydownOther code) s = .next s ∧
    decode (mkWord 2 code d) = .ok (.keyupOther code) ∧ exec (.keyupOther code) s = .next s

/-- The quit control: the press stops the run and changes nothing else; the release has no effect (the
edge is the spec's decision D16, log 16). -/
def Obligations.QuitPressStopsRun : Prop :=
  ∀ (s : State) (d : Byte), Accepting s →
    decode (mkWord 3 0x07 d) = .ok .keydownQuit ∧ exec .keydownQuit s = .next { s with run := .stopped } ∧
    decode (mkWord 2 0x07 d) = .ok .keyupQuit ∧ exec .keyupQuit s = .next s

/-- `41_input_port_latch.md` section 4 and `90_conflicts.md` C6: a press and a release of a control change no
unrelated bit, leave the control's bits 0, and give back both ports when those bits were 0. -/
def Obligations.KeyPressReleaseRoundTrip : Prop :=
  ∀ (s : State) (ctl : Control) (d d' : Byte) (down up : Instr), Accepting s →
    decode (mkWord 3 (controlCode ctl) d) = .ok down → decode (mkWord 2 (controlCode ctl) d') = .ok up →
    ∃ t, execAll [down, up] s = .next t ∧
      t.inputPort1 &&& ~~~mask1 ctl = s.inputPort1 &&& ~~~mask1 ctl ∧
      t.inputPort2 &&& ~~~mask2 ctl = s.inputPort2 &&& ~~~mask2 ctl ∧
      t.inputPort1 &&& mask1 ctl = 0 ∧ t.inputPort2 &&& mask2 ctl = 0 ∧
      (s.inputPort1 &&& mask1 ctl = 0 → s.inputPort2 &&& mask2 ctl = 0 → t = s)

/-- `41_input_port_latch.md` section 4 and `10_state.md` section 2: no transaction of the CPU and no POLL
changes the input ports, only IN 1 and IN 2 read them, and no transaction at all changes the bits no
control drives. -/
def Obligations.InputPortsIsolated : Prop :=
  ∀ (i : Instr) (s : State),
    (∀ t, exec i s = .next t →
      t.inputPort1 &&& 0x88 = s.inputPort1 &&& 0x88 ∧ t.inputPort2 &&& 0x8B = s.inputPort2 &&& 0x8B) ∧
    (∀ t, issuerOf i ≠ .operator → exec i s = .next t →
      t.inputPort1 = s.inputPort1 ∧ t.inputPort2 = s.inputPort2) ∧
    (∀ p1 p2, issuerOf i ≠ .operator → i ≠ .in1 → i ≠ .in2 →
      exec i (withInputPorts p1 p2 s) = mapNext (withInputPorts p1 p2) (exec i s))

/-- `70_reset_and_hazards.md` section 4: a press and a release of one control in the key events of one
iteration are never seen by that iteration's CPU step, whatever its POLL does. -/
def Obligations.PressAndReleaseInOneIterationUnseen : Prop :=
  ∀ (s : State) (ctl : Control) (now : Nat) (stores : List Host.Cell),
    Accepting s → s.turn = .events → Memory.within stores s.params.memSize = true →
    ∃ t earlier r1 r2,
      runMoves (Iteration.moves ⟨[⟨true, controlCode ctl⟩, ⟨false, controlCode ctl⟩], now, stores,
        [.input 1, .input 2]⟩) s = .next t ∧
      t.out = earlier ++ [.reply r1, .reply r2] ∧
      r1 = s.inputPort1 &&& ~~~mask1 ctl ∧ r2 = s.inputPort2 &&& ~~~mask2 ctl

/-! ### The sound edge detector -/

/-- R161: one `Clip(k)` for each of the lines 0 to 3 that rises, no other event, and the whole byte is
latched. No order of the events is stated (log 20). -/
def Obligations.Out3TriggersRisingLines : Prop :=
  ∀ (s : State) (v : Byte), Accepting s →
    decode (mkWord 1 0x03 v) = .ok (.out3 v) ∧
    ∃ events : List Event,
      exec (.out3 v) s = .next { s with out := s.out ++ events, lastSoundPort3 := v } ∧
      (∀ e ∈ events, ∃ k, e = .clip k) ∧
      ∀ k : Fin 9, events.count (.clip k) =
        if k.val < 4 ∧ v.getLsbD k.val = true ∧ s.lastSoundPort3.getLsbD k.val = false then 1 else 0

/-- R162: one `Clip(4 + i)` for each of the lines `i` = 0 to 4 of port 5 that rises, no other event, and the
whole byte is latched. No order of the events is stated (log 20). -/
def Obligations.Out5TriggersRisingLines : Prop :=
  ∀ (s : State) (v : Byte), Accepting s →
    decode (mkWord 1 0x05 v) = .ok (.out5 v) ∧
    ∃ events : List Event,
      exec (.out5 v) s = .next { s with out := s.out ++ events, lastSoundPort5 := v } ∧
      (∀ e ∈ events, ∃ k, e = .clip k) ∧
      ∀ k : Fin 9, events.count (.clip k) =
        if 4 ≤ k.val ∧ v.getLsbD (k.val - 4) = true ∧ s.lastSoundPort5.getLsbD (k.val - 4) = false
        then 1 else 0

/-- R163. -/
def Obligations.UnmappedOutIgnored : Prop :=
  ∀ (s : State) (port v : Byte), Accepting s → port ≠ 2 → port ≠ 3 → port ≠ 4 → port ≠ 5 →
    decode (mkWord 1 port v) = .ok (.outOther port v) ∧ exec (.outOther port v) s = .next s

/-- R165: a write equal to the latch has no effect at all, so from a latch of 0x00 the write 0x01 twice
triggers clip 0 exactly once. -/
def Obligations.EqualSoundWriteHasNoEffect : Prop :=
  ∀ s : State, Accepting s →
    exec (.out3 s.lastSoundPort3) s = .next s ∧ exec (.out5 s.lastSoundPort5) s = .next s ∧
    (s.lastSoundPort3 = 0x00 → ∃ t, execAll [.out3 0x01, .out3 0x01] s = .next t ∧
      (clipsOf t.out).count 0 = (clipsOf s.out).count 0 + 1)

/-- `42_sound_edge_detector.md` section 3: 0x00, 0x01, 0x00, 0x01 triggers clip 0 exactly twice, from every
prior value of the latch. -/
def Obligations.RetriggerNeedsFallingEdge : Prop :=
  ∀ s : State, Accepting s →
    ∃ t, execAll [.out3 0x00, .out3 0x01, .out3 0x00, .out3 0x01] s = .next t ∧
      (clipsOf t.out).count 0 = (clipsOf s.out).count 0 + 2

/-- R168: only OUT 3 and OUT 5 emit clips; every other transaction neither reads nor writes the sound
latches; and each of the two leaves the other's latch alone. -/
def Obligations.SoundLatchesIsolated : Prop :=
  ∀ (s : State) (a b : Byte),
    (∀ i : Instr, (∀ v, i ≠ .out3 v) → (∀ v, i ≠ .out5 v) →
      exec i (withSoundLatches a b s) = mapNext (withSoundLatches a b) (exec i s) ∧
      ∀ t, exec i s = .next t → clipsOf t.out = clipsOf s.out) ∧
    (∀ v, exec (.out3 v) (withSoundLatches s.lastSoundPort3 b s) =
      mapNext (fun t => withSoundLatches t.lastSoundPort3 b t) (exec (.out3 v) s)) ∧
    (∀ v, exec (.out5 v) (withSoundLatches a s.lastSoundPort5 s) =
      mapNext (fun t => withSoundLatches a t.lastSoundPort5 t) (exec (.out5 v) s))

/-! ### The frame scheduler -/

/-- R201, R202: a poll that is not due does nothing; a due poll with the flag false sets the baseline and
nothing else. -/
def Obligations.PollNotDueOrGated : Prop :=
  ∀ (s : State) (sel d : Byte), Accepting s →
    decode (mkWord 4 sel d) = .ok .poll ∧
    ((s.now : Int) - (s.tickBase : Int) < (s.params.tickThreshold : Int) → exec .poll s = .next s) ∧
    ((s.params.tickThreshold : Int) ≤ (s.now : Int) - (s.tickBase : Int) → s.inte = false →
      exec .poll s = .next { s with tickBase := s.now })

/-- R205. -/
def Obligations.DuePollResetsBaseline : Prop :=
  ∀ s : State, Accepting s → (s.params.tickThreshold : Int) ≤ (s.now : Int) - (s.tickBase : Int) →
    ∃ t, exec .poll s = .next t ∧ t.tickBase = s.now

/-- R203: a poll that fires emits exactly one interrupt, vector 1 in phase Mid and 2 in phase End, and
toggles the phase; no other transaction changes the phase or requests an interrupt. -/
def Obligations.FiredPollAlternatesVectors : Prop :=
  (∀ s : State, Accepting s → Fires s →
    ∃ t v, exec .poll s = .next t ∧ vectorsOf t.out = vectorsOf s.out ++ [v] ∧
      (s.phase = .mid → v.number = 1 ∧ t.phase = .fin) ∧
      (s.phase = .fin → v.number = 2 ∧ t.phase = .mid)) ∧
  (∀ (s t : State) (i : Instr), ¬ Fires s ∨ i ≠ .poll → exec i s = .next t →
    t.phase = s.phase ∧ vectorsOf t.out = vectorsOf s.out)

/-- `44_frame_scheduler.md` section 2: everything a poll that fires does. The interrupt comes first and is
delivered before the redraw (decision D17 of the spec); what the delivery stores is the free value
`deliveryStores` (log 15); nothing else changes. -/
def Obligations.FiredPollRedraws : Prop :=
  ∀ s : State, Accepting s → Fires s →
    ∃ v fb, exec .poll s = .next { s with
        phase := if s.phase = .mid then .fin else .mid
        mem := Memory.storeAll s.mem s.deliveryStores
        frameBuffer := fb
        out := s.out ++ [.interrupt v, .frame fb]
        tickBase := s.now } ∧
      v.number = (if s.phase = .mid then 1 else 2) ∧
      fb = composite s.params.vramBase (Memory.storeAll s.mem s.deliveryStores)

/-- `44_frame_scheduler.md` section 3: the untimed POLL, given the value of the due test, has every behaviour
of the timed one but for the baseline. -/
def Obligations.UntimedPollAdmitsTimedPoll : Prop :=
  ∀ s t : State, exec .poll s = .next t →
    execPollUntimed (isDue s) s = .next { t with tickBase := s.tickBase }

/-- `44_frame_scheduler.md` section 3, no catch-up: while the timebase does not run backwards, a run of any
length requests at most one interrupt per threshold of elapsed time. -/
def Obligations.InterruptRateBounded : Prop :=
  ∀ (k : Nat) (s t : State), s.tickBase ≤ s.now → monotoneFrom s.now s.moves = true →
    Host.Core.run Sys2Proof.core k s = .next t →
    (vectorsOf t.out).length * s.params.tickThreshold + s.tickBase ≤
      (vectorsOf s.out).length * s.params.tickThreshold + t.now

/-- `44_frame_scheduler.md` section 2: in every run from reset, of every configuration and surroundings, with
any moves, the vectors alternate from the mid-frame one, their numbers are 1, 2, 1, 2, …, there is one
frame per interrupt, and the phase is Mid exactly after an even number of fired polls. -/
def Obligations.VectorsAlternateInEveryRun : Prop :=
  ∀ (p : Params) (e : Surroundings) (k : Nat) (t : State),
    Host.Core.run Sys2Proof.core k (State.resetWith p e) = .next t →
    vectorsOf t.out = alternation (vectorsOf t.out).length ∧
    (vectorsOf t.out).map IrqVector.number = (List.range (vectorsOf t.out).length).map (fun k => 1 + k % 2) ∧
    (framesOf t.out).length = (vectorsOf t.out).length ∧
    (t.phase = .mid ↔ (vectorsOf t.out).length % 2 = 0)

/-! ### The video compositor -/

/-- `43_video_compositor.md` section 1: after a poll that fires, `lit(c, 255 - (r*8 + b))` is bit `b` of the
window byte of column `c`, byte-row `r`, of the memory as the delivery leaves it; and the four bytes of
every pixel are all 0xFF or all 0x00. That the frame shows the memory after the delivery is the spec's
decision D17 (log 15); layout and pixel bytes are its decisions D12, D13 (log 11). -/
def Obligations.FrameShowsWindow : Prop :=
  ∀ s t : State, Fires s → exec .poll s = .next t →
    ∀ c r b, c < 224 → r < 32 → b < 8 →
      lit t.frameBuffer c (255 - (r * 8 + b)) =
        (Memory.read t.mem (s.params.vramBase + c * 32 + r)).getLsbD b ∧
      ∀ j < 4, Memory.read t.frameBuffer (((255 - (r * 8 + b)) * 224 + c) * 4 + j) =
        if (Memory.read t.mem (s.params.vramBase + c * 32 + r)).getLsbD b then 0xFF else 0x00

/-- `43_video_compositor.md` section 1: the compositor is the triple loop of `FbWrite` over the buffer as it
stands, whatever it held: every byte is overwritten (the byte layout is the spec's decisions D12, D13,
log 11; the sparse form is the model's, log 12). -/
def Obligations.CompositeIsTheTripleLoop : Prop :=
  ∀ (base : Nat) (mem : Memory) (fb : FrameBuffer), FrameBuffer.wf fb = true →
    compositeLoop base mem fb = composite base mem

/-- `43_video_compositor.md` section 2: the frame is a function of the window bytes alone: two polls that fire
over equal windows hand over equal frames, whatever the phase, the earlier buffer and all else. The window
is the one the delivery leaves (decision D17 of the spec, log 15). -/
def Obligations.FrameDependsOnWindowOnly : Prop :=
  ∀ s₁ t₁ s₂ t₂ : State, Fires s₁ → Fires s₂ →
    exec .poll s₁ = .next t₁ → exec .poll s₂ = .next t₂ →
    s₁.params.vramBase = s₂.params.vramBase →
    (∀ k < 7168, Memory.read t₁.mem (s₁.params.vramBase + k) = Memory.read t₂.mem (s₂.params.vramBase + k)) →
    t₁.frameBuffer = t₂.frameBuffer ∧
    (framesOf t₁.out).getLast? = some t₁.frameBuffer ∧ (framesOf t₂.out).getLast? = some t₁.frameBuffer

/-! ### The whole block -/

/-- `60_exceptions.md` section 1: no transaction can fault, trap or be refused for its operands: in an allowed
configuration, while the loop runs, each answers a next state. -/
def Obligations.EveryTransactionCompletes : Prop :=
  ∀ (i : Instr) (s : State), Accepting s → ∃ t, exec i s = .next t

/-- `00_scope.md` section 5, `30_encoding.md` section 1: which events each class of transaction emits: one reply
for an IN, clips only for an OUT, none for a key event, nothing or an interrupt and then the frame for a
POLL. -/
def Obligations.EventsByClass : Prop :=
  ∀ (i : Instr) (s t : State), exec i s = .next t →
    ∃ events, t.out = s.out ++ events ∧
      ((encode i).cls = 0 → ∃ v, events = [.reply v]) ∧
      ((encode i).cls = 1 → ∀ e ∈ events, ∃ k, e = .clip k) ∧
      ((encode i).cls = 2 ∨ (encode i).cls = 3 → events = []) ∧
      ((encode i).cls = 4 → events = [] ∨ ∃ v, events = [.interrupt v, .frame t.frameBuffer])

/-- `20_memory.md` section 1, `00_scope.md` section 5: the block writes no byte of CPU memory, nor the flag, the
timebase, the parameters, the clip table, the place in the iteration or the diagnostic; a byte changes during a POLL only where the
CPU's own delivery stores, and during any other transaction not at all; the frame buffer and the
scheduler state are changed by a POLL only. -/
def Obligations.TransactionFrame : Prop :=
  ∀ (i : Instr) (s t : State), exec i s = .next t →
    (Memory.wf s.mem = true → ∀ a, (∀ c ∈ s.deliveryStores, c.1 ≠ a) →
      Memory.read t.mem a = Memory.read s.mem a) ∧
    (i ≠ .poll → t.mem = s.mem ∧ t.frameBuffer = s.frameBuffer ∧ t.phase = s.phase ∧ t.tickBase = s.tickBase) ∧
    t.turn = s.turn ∧ t.inte = s.inte ∧ t.now = s.now ∧ t.params = s.params ∧ t.clipTable = s.clipTable ∧
    t.deliveryStores = s.deliveryStores ∧ t.diagnostic = s.diagnostic ∧ t.moves = s.moves

/-- R221: an invalid instruction, reported by the CPU's `step()`, stops the run; every latch keeps its value,
no event is emitted, and the instruction byte and address are recorded as the CPU gives them (log 22). -/
def Obligations.InvalidInstructionStopsRun : Prop :=
  ∀ (s : State) (b : Byte) (a : Nat) (rest : List Move), Accepting s → s.turn = .cpuStep →
    s.moves = .cpuInvalid b a :: rest →
    step s = .next { s with run := .stopped, diagnostic := some ⟨b, a⟩, moves := rest }

/-- `70_reset_and_hazards.md` section 3 (decision D20 of the spec, log 17): once stopped, no transaction and
no step has a next state. -/
def Obligations.StoppedAcceptsNothing : Prop :=
  ∀ s : State, configurationOk s.params = true → s.run = .stopped →
    step s = .fault .stopped ∧ ∀ i : Instr, exec i s = .fault .stopped

/-- `70_reset_and_hazards.md` section 3: a run is stopped only by a word that is KEYDOWN quit or by an invalid
instruction. That the release of quit does not stop it is the spec's decision D16 (log 16, unsafe for
that edge). -/
def Obligations.StopOnlyByQuitOrInvalid : Prop :=
  ∀ s t : State, step s = .next t → t.run = .stopped →
    ∃ rest, (∃ w, s.moves = .transaction w :: rest ∧ decode w = .ok .keydownQuit) ∨
      (∃ b a, s.moves = .cpuInvalid b a :: rest)

/-- `00_scope.md` section 4, `20_memory.md` section 3 (decision D21 of the spec, log 19): a configuration whose
window runs off the memory, or whose threshold is 0, is refused whatever is presented. -/
def Obligations.BadConfigurationRefused : Prop :=
  ∀ s : State, s.params.memSize < s.params.vramBase + 7168 ∨ s.params.tickThreshold = 0 →
    step s = .refused .configuration ∧ ∀ i : Instr, exec i s = .refused .configuration

/-! ### Reset and bootstrap -/

/-- `10_state.md` section 6: the reset table, for every parameters and surroundings. The zero latches, the
switch bits and the baseline are the spec's decisions D4, D5, D6, D10 (logs 5, 6, 7, 9). -/
def Obligations.ResetTable : Prop :=
  ∀ (p : Params) (e : Surroundings) (s : State), s = State.resetWith p e →
    s.inputPort1 = p.port1SwitchDefault &&& 0x88 ∧ s.inputPort2 = p.port2SwitchDefault &&& 0x8B ∧
    s.shiftLow = 0x00 ∧ s.shiftHigh = 0x00 ∧ s.shiftOffset = 0 ∧
    s.lastSoundPort3 = 0x00 ∧ s.lastSoundPort5 = 0x00 ∧
    s.phase = .mid ∧ s.tickBase = s.now ∧ s.run = .running ∧ s.out = []

/-- `70_reset_and_hazards.md` section 1: the first behaviour after reset, for every allowed configuration: IN 3
replies 0x00, IN 1 and IN 2 the switch bits; a poll earlier than one threshold after reset does nothing;
a poll that fires requests vector 1; the first OUT 3 triggers every mapped line that is 1 (rests on
the reset values decided in D4, D5, D6, D10: logs 5, 6, 7, 9). -/
def Obligations.FirstBehaviourAfterReset : Prop :=
  ∀ (p : Params) (e : Surroundings) (s : State), configurationOk p = true → s = State.resetWith p e →
    exec .in3 s = .next (s.emit [.reply 0x00]) ∧
    exec .in1 s = .next (s.emit [.reply (p.port1SwitchDefault &&& 0x88)]) ∧
    exec .in2 s = .next (s.emit [.reply (p.port2SwitchDefault &&& 0x8B)]) ∧
    (∀ u, u < e.now + p.tickThreshold → exec .poll { s with now := u } = .next { s with now := u }) ∧
    (∀ u, e.now + p.tickThreshold ≤ u →
      ∃ t, exec .poll { s with now := u, inte := true } = .next t ∧ vectorsOf t.out = [.midFrame]) ∧
    (∀ v, ∃ t, exec (.out3 v) s = .next t ∧
      ∀ k : Fin 9, (clipsOf t.out).count k = if k.val < 4 ∧ v.getLsbD k.val = true then 1 else 0)

/-- `70_reset_and_hazards.md` section 2, `60_exceptions.md` section 1: with a startup failure the run never
starts; else the four images, none longer than 0x0800 bytes, stand at 0x0000, 0x0800, 0x1000 and 0x1800,
every other byte is as it was, and the rest is the reset state (log 26). -/
def Obligations.BootstrapLoadsRoms : Prop :=
  (∀ p e roms f, bootstrap p e roms (some f) = .aborted f) ∧
  (∀ (p : Params) (e : Surroundings) (roms : RomImages), configurationOk p = true →
    romsFit p.memSize roms = true → e.clipTable.length = 9 → Memory.wf e.mem = true →
    roms.rom0000.length ≤ 0x0800 → roms.rom0800.length ≤ 0x0800 → roms.rom1000.length ≤ 0x0800 →
    ∃ m, bootstrap p e roms none = .started (State.resetWith p { e with mem := m }) ∧
      (∀ i v, roms.rom0000[i]? = some v → Memory.read m i = v) ∧
      (∀ i v, roms.rom0800[i]? = some v → Memory.read m (0x0800 + i) = v) ∧
      (∀ i v, roms.rom1000[i]? = some v → Memory.read m (0x1000 + i) = v) ∧
      (∀ i v, roms.rom1800[i]? = some v → Memory.read m (0x1800 + i) = v) ∧
      (∀ a, ¬ covers 0x0000 roms.rom0000 a → ¬ covers 0x0800 roms.rom0800 a →
        ¬ covers 0x1000 roms.rom1000 a → ¬ covers 0x1800 roms.rom1800 a →
        Memory.read m a = Memory.read e.mem a))

/-! ### The invariant -/

/-- `10_state.md` section 5: the invariant holds at reset, for every parameters and for surroundings in
canonical form inside the memory. -/
def Obligations.ResetMeetsInvariant : Prop :=
  ∀ (p : Params) (e : Surroundings), Memory.wf e.mem = true → Memory.within e.mem p.memSize = true →
    Memory.within e.deliveryStores p.memSize = true → FrameBuffer.wf e.frameBuffer = true →
    e.clipTable.length = 9 → Inv (State.resetWith p e)

/-- `10_state.md` section 5: every step keeps the invariant. -/
def Obligations.StepKeepsInvariant : Prop :=
  ∀ s t : State, Inv s → step s = .next t → Inv t

/-! ### The main loop -/

/-- `44_frame_scheduler.md` section 3, `70_reset_and_hazards.md` section 6: what the main loop never presents
has no step: a key event or a POLL inside a CPU step, and a port transaction, a store, a change of the
flag, a failure or a return of the CPU outside one (the refusal is the model's choice, log 29). -/
def Obligations.OutOfTurnMovesRefused : Prop :=
  ∀ (s : State) (rest : List Move), Accepting s →
    (∀ w i, s.moves = .transaction w :: rest → decode w = .ok i → s.turn ≠ (issuerOf i).turn →
      step s = .refused .outOfTurn) ∧
    (s.turn = .events →
      (∀ a v, s.moves = .cpuStore a v :: rest → step s = .refused .outOfTurn) ∧
      (∀ b, s.moves = .cpuInte b :: rest → step s = .refused .outOfTurn) ∧
      (∀ b a, s.moves = .cpuInvalid b a :: rest → step s = .refused .outOfTurn) ∧
      (s.moves = .cpuStepDone :: rest → step s = .refused .outOfTurn))

/-- `44_frame_scheduler.md` section 3: exactly one POLL for each CPU step, in every run of any length from any
state: of the moves it takes, the POLLs are the returns of CPU steps, and one more while a CPU step is
open (the place in the iteration is the model's field, log 29). -/
def Obligations.OnePollPerCpuStep : Prop :=
  ∀ (k : Nat) (s t : State), Host.Core.run Sys2Proof.core k s = .next t →
    (s.moves.take k).countP isPollMove + openSteps s.turn =
      (s.moves.take k).countP isStepDone + openSteps t.turn

/-- `44_frame_scheduler.md` section 3: one iteration of the loop, in its order: the key events, then the one
POLL on its samples, then the CPU step, each seeing the state the earlier ones leave; and the loop goes on
with the next iteration (the place in the iteration is the model's field, log 29). The run
ends earlier only where an iteration holds the press of quit (decision D16 of the spec, log 16) or an
invalid instruction: `LoopEndsWhereRunStops`. -/
def Obligations.IterationRunsInOrder : Prop :=
  ∀ (s : State) (it : Iteration) (its : List Iteration), Accepting s → s.turn = .events →
    it.keys.all (fun k => !k.isQuit) = true → Memory.within it.deliveryStores s.params.memSize = true →
    it.cpu.all (CpuAction.returns s.params.memSize) = true →
    ∃ a b c : State,
      runMoves it.keyMoves s = .next a ∧
      exec .poll { a with now := it.now, deliveryStores := it.deliveryStores, turn := .cpuStep } = .next b ∧
      runMoves it.cpuMoves b = .next c ∧ c.run = .running ∧ c.turn = .cpuStep ∧
      mainLoop (it :: its) s = mainLoop its { c with turn := .events }

/-- `70_reset_and_hazards.md` section 3, `44_frame_scheduler.md` section 3: the loop ends where the run stops.
At the press of quit the rest of the key events, the POLL and the CPU step of that iteration and all
later iterations are not performed (decision D16 of the spec, log 16); at an invalid instruction the rest
of the step and all later iterations are not. -/
def Obligations.LoopEndsWhereRunStops : Prop :=
  (∀ (s t : State) (it : Iteration) (before after : List KeyEvent) (its : List Iteration),
    Accepting s → s.turn = .events → it.keys = before ++ ⟨true, 0x07⟩ :: after →
    runMoves (before.map KeyEvent.move) s = .next t → t.run = .running →
      mainLoop (it :: its) s = .next (stopRun t)) ∧
  (∀ (s t : State) (it : Iteration) (before after : List CpuAction) (b : Byte) (a : Nat)
      (its : List Iteration),
    it.cpu = before ++ .invalidInstruction b a :: after →
    runMoves (it.keyMoves ++ it.pollMoves ++ before.map CpuAction.move) s = .next t → t.run = .running →
      mainLoop (it :: its) s = .next (failRun b a t)) ∧
  (∀ (s : State) (its : List Iteration), s.run = .stopped → mainLoop its s = .next s)

/-- `44_frame_scheduler.md` section 3: the loop is steps of the machine: presented with the moves of its
iterations, the machine comes by steps to the state in which the loop ends, with no move left if the run
still goes on (the queue of moves is the model's choice, log 1). -/
def Obligations.MainLoopIsSteps : Prop :=
  ∀ (s t : State) (its : List Iteration), mainLoop its s = .next t →
    ∃ k rest, Host.Core.run Sys2Proof.core k { s with moves := its.flatMap Iteration.moves } =
        .next { t with moves := rest } ∧
      (t.run = .running → rest = [])
end

