-- ==== Sys2Proof/Laws/Accept.lean ====
section
/-! SUPPORT. When a move is accepted, and what each transaction does when it is: the one lemma about
`exec` that later proofs cite. -/

namespace Sys2Proof.Machine

theorem whenAccepted_of_accepting {s : State} (h : Accepting s) (o : Host.Outcome State Fault Refusal) :
    whenAccepted s o = o := by
  obtain ⟨hc, hr⟩ := h
  simp [whenAccepted, hc, hr]

theorem accept_of_accepting {s : State} (h : Accepting s) (t : State) : accept s t = .next t :=
  whenAccepted_of_accepting h _

/-- An accepted move that answers a next state was accepted. -/
theorem whenAccepted_next {s t : State} {o : Host.Outcome State Fault Refusal}
    (h : whenAccepted s o = .next t) : Accepting s ∧ o = .next t := by
  unfold whenAccepted at h
  split at h
  · rename_i hc
    cases hr : s.run with
    | running => rw [hr] at h; exact ⟨⟨hc, hr⟩, h⟩
    | stopped => rw [hr] at h; cases h
  · cases h

theorem accept_next {s t u : State} (h : accept s t = .next u) : Accepting s ∧ u = t := by
  obtain ⟨ha, he⟩ := whenAccepted_next h
  cases he
  exact ⟨ha, rfl⟩

theorem whenAccepted_stopped {s : State} (hc : configurationOk s.params = true) (hr : s.run = .stopped)
    (o : Host.Outcome State Fault Refusal) : whenAccepted s o = .fault .stopped := by
  simp [whenAccepted, hc, hr]

theorem whenAccepted_refused {s : State} (hc : configurationOk s.params = false)
    (o : Host.Outcome State Fault Refusal) : whenAccepted s o = .refused .configuration := by
  simp [whenAccepted, hc]

/-- The effect of each transaction on an accepting state. -/
def effect : Instr → State → State
  | .in1, s => s.emit [.reply s.inputPort1]
  | .in2, s => s.emit [.reply s.inputPort2]
  | .in3, s => s.emit [.reply (shiftWindow s.shiftHigh s.shiftLow s.shiftOffset)]
  | .inOther _, s => s.emit [.reply 0x00]
  | .out2 v, s => { s with shiftOffset := offsetField v }
  | .out3 v, s => { s.emit (clipEvents soundMap3 v s.lastSoundPort3) with lastSoundPort3 := v }
  | .out4 v, s => { s with shiftLow := s.shiftHigh, shiftHigh := v }
  | .out5 v, s => { s.emit (clipEvents soundMap5 v s.lastSoundPort5) with lastSoundPort5 := v }
  | .outOther _ _, s => s
  | .keyupCoin, s => releaseControl .coin s
  | .keyupPlayer2Start, s => releaseControl .player2Start s
  | .keyupPlayer1Start, s => releaseControl .player1Start s
  | .keyupTilt, s => releaseControl .tilt s
  | .keyupFire, s => releaseControl .fire s
  | .keyupLeft, s => releaseControl .left s
  | .keyupRight, s => releaseControl .right s
  | .keyupQuit, s => s
  | .keyupOther _, s => s
  | .keydownCoin, s => pressControl .coin s
  | .keydownPlayer2Start, s => pressControl .player2Start s
  | .keydownPlayer1Start, s => pressControl .player1Start s
  | .keydownTilt, s => pressControl .tilt s
  | .keydownFire, s => pressControl .fire s
  | .keydownLeft, s => pressControl .left s
  | .keydownRight, s => pressControl .right s
  | .keydownQuit, s => stopRun s
  | .keydownOther _, s => s
  | .poll, s => if isDue s then resetBaseline (dueTick s) else s

theorem exec_eq (i : Instr) (s : State) : exec i s = accept s (effect i s) := by cases i <;> rfl

/-- What `exec` can answer: nothing but the effect, on an accepting state. -/
theorem exec_next {i : Instr} {s t : State} (h : exec i s = .next t) : Accepting s ∧ t = effect i s :=
  accept_next (exec_eq i s ▸ h)

theorem exec_of_accepting {s : State} (h : Accepting s) (i : Instr) : exec i s = .next (effect i s) := by
  rw [exec_eq, accept_of_accepting h]

/-- What one step can do: stand idle, or run the oldest move. -/
theorem step_next {s t : State} (h : step s = .next t) :
    Accepting s ∧ ((s.moves = [] ∧ t = s) ∨
      ∃ m rest, s.moves = m :: rest ∧ runMove m { s with moves := rest } = .next t) := by
  unfold step takeMove at h
  split at h
  · rename_i hm
    obtain ⟨ha, ht⟩ := accept_next h
    exact ⟨ha, .inl ⟨hm, ht⟩⟩
  · rename_i m rest hm
    exact ⟨(whenAccepted_next h).1, .inr ⟨m, rest, hm, h⟩⟩

/-- A step with a move to come is that move. -/
theorem step_of_moves {s : State} {m : Move} {rest : List Move} (hm : s.moves = m :: rest) :
    step s = runMove m { s with moves := rest } := by
  simp only [step, takeMove, hm]

/-- With no move to come the block stands as it is. -/
theorem step_idle {s : State} (h : Accepting s) (hm : s.moves = []) : step s = .next s := by
  simp only [step, takeMove, hm]
  exact accept_of_accepting h s

/-- What a move in one part of the iteration can answer. -/
theorem inTurn_next {turn : Turn} {s t : State} {o : Host.Outcome State Fault Refusal}
    (h : inTurn turn s o = .next t) : s.turn = turn ∧ o = .next t := by
  unfold inTurn at h
  split at h
  · exact ⟨‹_›, h⟩
  · cases h

theorem inTurn_of_turn {turn : Turn} {s : State} (h : s.turn = turn) (o : Host.Outcome State Fault Refusal) :
    inTurn turn s o = o := if_pos h

/-- A step on a word that decodes, in its part of the iteration, has the effect of its transaction. -/
theorem step_word {s : State} {w : Word} {i : Instr} {rest : List Move} (h : Accepting s)
    (ht : s.turn = (issuerOf i).turn) (hm : s.moves = .transaction w :: rest) (hd : decode w = .ok i) :
    step s = .next (effect i { s with moves := rest, turn := (issuerOf i).turnAfter }) := by
  have ha : Accepting { s with moves := rest } := h
  rw [step_of_moves hm, runMove, whenAccepted_of_accepting ha]
  simp only [runWord, hd]
  exact (inTurn_of_turn (s := { s with moves := rest }) ht _).trans
    (exec_of_accepting (s := { s with moves := rest, turn := (issuerOf i).turnAfter }) h i)

/-- What one move can do. -/
theorem runMove_next {m : Move} {s t : State} (h : runMove m s = .next t) :
    Accepting s ∧
      ((∃ w i, m = .transaction w ∧ decode w = .ok i ∧ s.turn = (issuerOf i).turn ∧
          t = effect i { s with turn := (issuerOf i).turnAfter }) ∨
       (∃ u, m = .timebase u ∧ t = { s with now := u }) ∨
       (∃ a v, m = .cpuStore a v ∧ s.turn = .cpuStep ∧ a < s.params.memSize ∧
          t = { s with mem := Memory.write s.mem a v }) ∨
       (∃ b, m = .cpuInte b ∧ s.turn = .cpuStep ∧ t = { s with inte := b }) ∨
       (∃ d, m = .cpuDelivery d ∧ Memory.within d s.params.memSize = true ∧ t = { s with deliveryStores := d }) ∨
       (∃ b a, m = .cpuInvalid b a ∧ s.turn = .cpuStep ∧ t = failRun b a s) ∨
       (m = .cpuStepDone ∧ s.turn = .cpuStep ∧ t = { s with turn := .events })) := by
  obtain ⟨ha, h⟩ := whenAccepted_next h
  refine ⟨ha, ?_⟩
  cases m with
  | transaction w =>
    refine .inl ⟨w, ?_⟩
    simp only [runWord] at h
    split at h
    · rename_i i hd
      obtain ⟨ht, h⟩ := inTurn_next h
      exact ⟨i, rfl, hd, ht, (exec_next h).2⟩
    · cases h
  | timebase u => cases h; exact .inr (.inl ⟨u, rfl, rfl⟩)
  | cpuStore a v =>
    obtain ⟨ht, h⟩ := inTurn_next h
    simp only [storeByte] at h
    split at h
    · cases h; exact .inr (.inr (.inl ⟨a, v, rfl, ht, ‹_›, rfl⟩))
    · cases h
  | cpuInte b =>
    obtain ⟨ht, h⟩ := inTurn_next h
    cases h; exact .inr (.inr (.inr (.inl ⟨b, rfl, ht, rfl⟩)))
  | cpuDelivery d =>
    simp only [setDelivery] at h
    split at h
    · cases h
    · rename_i hf
      cases h
      refine .inr (.inr (.inr (.inr (.inl ⟨d, rfl, ?_, rfl⟩))))
      simpa [Memory.within] using hf
  | cpuInvalid b a =>
    obtain ⟨ht, h⟩ := inTurn_next h
    cases h; exact .inr (.inr (.inr (.inr (.inr (.inl ⟨b, a, rfl, ht, rfl⟩)))))
  | cpuStepDone =>
    obtain ⟨ht, h⟩ := inTurn_next h
    cases h; exact .inr (.inr (.inr (.inr (.inr (.inr ⟨rfl, ht, rfl⟩)))))

end Sys2Proof.Machine
end

