-- ==== Sys2Proof/Laws/Memory.lean ====
section
/-! SUPPORT. The laws of the sparse byte store that holds the CPU memory and the frame buffer: every
operation keeps the canonical form; a read after a write; canonical stores with equal reads are equal. -/

namespace Sys2Proof.Machine

namespace Memory

theorem wfFrom_cons {lo k : Nat} {v : Byte} {rest : Memory} :
    wfFrom lo ((k, v) :: rest) = true ↔ lo ≤ k ∧ v ≠ unlistedByte ∧ wfFrom (k + 1) rest = true := by
  simp [wfFrom, and_assoc]

theorem wfFrom_mono {lo lo' : Nat} {m : Memory} (h : wfFrom lo m = true) (hle : lo' ≤ lo) :
    wfFrom lo' m = true := by
  cases m with
  | nil => rfl
  | cons c rest =>
    obtain ⟨k, v⟩ := c
    rw [wfFrom_cons] at h ⊢
    exact ⟨by omega, h.2⟩

theorem wf_of_wfFrom {lo : Nat} {m : Memory} (h : wfFrom lo m = true) : wf m = true :=
  wfFrom_mono h (Nat.zero_le lo)

/-- Below its first address a canonical store reads as unlisted. -/
theorem read_below {lo a : Nat} {m : Memory} (h : wfFrom lo m = true) (ha : a < lo) :
    read m a = unlistedByte := by
  induction m generalizing lo with
  | nil => rfl
  | cons c rest ih =>
    obtain ⟨k, v⟩ := c
    rw [wfFrom_cons] at h
    have hk : k ≠ a := by omega
    simp only [read, if_neg hk]
    exact ih h.2.2 (by omega)

theorem putFront_wfFrom {lo a : Nat} {v : Byte} {rest : Memory} (hlo : lo ≤ a)
    (h : wfFrom (a + 1) rest = true) : wfFrom lo (putFront a v rest) = true := by
  unfold putFront
  split
  · exact wfFrom_mono h (by omega)
  · rw [wfFrom_cons]; exact ⟨hlo, ‹_›, h⟩

theorem write_wfFrom {lo a : Nat} {m : Memory} (v : Byte) (h : wfFrom lo m = true) (hlo : lo ≤ a) :
    wfFrom lo (write m a v) = true := by
  induction m generalizing lo with
  | nil => exact putFront_wfFrom hlo rfl
  | cons c rest ih =>
    obtain ⟨k, w⟩ := c
    have h' := wfFrom_cons.mp h
    unfold write
    split
    · exact putFront_wfFrom hlo (wfFrom_cons.mpr ⟨by omega, h'.2⟩)
    · split
      · subst a; exact putFront_wfFrom hlo h'.2.2
      · exact wfFrom_cons.mpr ⟨h'.1, h'.2.1, ih h'.2.2 (by omega)⟩

/-- A write keeps the canonical form. -/
theorem write_wf {m : Memory} (h : wf m = true) (a : Nat) (v : Byte) : wf (write m a v) = true :=
  write_wfFrom v h (Nat.zero_le a)

theorem storeAll_wf {m : Memory} (h : wf m = true) (stores : List Host.Cell) :
    wf (storeAll m stores) = true := by
  unfold storeAll
  induction stores generalizing m with
  | nil => exact h
  | cons c rest ih => exact ih (write_wf h c.1 c.2)

theorem writeBytes_wf {m : Memory} (h : wf m = true) (base : Nat) (bytes : List Byte) :
    wf (writeBytes m base bytes) = true := by
  induction bytes generalizing m base with
  | nil => exact h
  | cons v rest ih => exact ih (write_wf h base v) (base + 1)

theorem read_putFront {a b lo : Nat} {v : Byte} {rest : Memory} (h : wfFrom lo rest = true)
    (hlo : a < lo) : read (putFront a v rest) b = if b = a then v else read rest b := by
  unfold putFront
  by_cases hv : v = unlistedByte
  · rw [if_pos hv]
    by_cases hb : b = a
    · rw [if_pos hb, hb, hv]; exact read_below h hlo
    · rw [if_neg hb]
  · rw [if_neg hv]
    by_cases hb : b = a
    · simp [read, hb]
    · have : ¬ a = b := fun e => hb e.symm
      simp [read, hb, this]

theorem read_write_from {lo a b : Nat} {m : Memory} (v : Byte) (h : wfFrom lo m = true) :
    read (write m a v) b = if b = a then v else read m b := by
  induction m generalizing lo with
  | nil => exact read_putFront (lo := a + 1) rfl (by omega)
  | cons c rest ih =>
    obtain ⟨k, w⟩ := c
    have h' := wfFrom_cons.mp h
    unfold write
    split
    · exact read_putFront (wfFrom_cons.mpr ⟨Nat.le_refl k, h'.2⟩) ‹_›
    · split
      · subst a
        rw [read_putFront h'.2.2 (by omega)]
        by_cases hb : b = k
        · simp [hb]
        · have : ¬ k = b := fun e => hb e.symm
          simp [read, hb, this]
      · by_cases hk : k = b
        · subst hk
          have : ¬ k = a := by omega
          simp [read, this]
        · simp only [read, if_neg hk]; exact ih h'.2.2

/-- A read after a write: the written byte at its address, the old byte elsewhere. -/
theorem read_write {m : Memory} (h : wf m = true) (a b : Nat) (v : Byte) :
    read (write m a v) b = if b = a then v else read m b := read_write_from v h

/-- A byte no store names is unchanged. -/
theorem read_storeAll_other {m : Memory} (h : wf m = true) (stores : List Host.Cell) {a : Nat}
    (ha : ∀ c ∈ stores, c.1 ≠ a) : read (storeAll m stores) a = read m a := by
  unfold storeAll
  induction stores generalizing m with
  | nil => rfl
  | cons c rest ih =>
    rw [List.foldl_cons, ih (write_wf h c.1 c.2) fun d hd => ha d (List.mem_cons_of_mem _ hd),
      read_write h, if_neg (fun e => ha c List.mem_cons_self e.symm)]

/-- The bytes written by `writeBytes`, and the rest. -/
theorem read_writeBytes {m : Memory} (h : wf m = true) (base a : Nat) (bytes : List Byte) :
    read (writeBytes m base bytes) a =
      if base ≤ a then (bytes[a - base]?).getD (read m a) else read m a := by
  induction bytes generalizing m base with
  | nil => simp [writeBytes]
  | cons v rest ih =>
    rw [writeBytes, ih (write_wf h base v) (base + 1), read_write h]
    by_cases h1 : base + 1 ≤ a
    · have h2 : base ≤ a := by omega
      have h3 : a ≠ base := by omega
      have h4 : a - base = (a - (base + 1)) + 1 := by omega
      simp [h1, h2, h3, h4]
    · by_cases h2 : a = base
      · subst h2; simp
      · have h3 : ¬ base ≤ a := by omega
        simp [h1, h2, h3]

theorem within_cons {k size : Nat} {v : Byte} {rest : Memory} :
    within ((k, v) :: rest) size = true ↔ k < size ∧ within rest size = true := by
  simp [within]

theorem putFront_within {a size : Nat} {v : Byte} {rest : Memory} (ha : a < size)
    (h : within rest size = true) : within (putFront a v rest) size = true := by
  unfold putFront
  split
  · exact h
  · exact within_cons.mpr ⟨ha, h⟩

/-- A write inside the size stays inside it. -/
theorem write_within {a size : Nat} {m : Memory} (v : Byte) (h : within m size = true) (ha : a < size) :
    within (write m a v) size = true := by
  induction m with
  | nil => exact putFront_within ha h
  | cons c rest ih =>
    obtain ⟨k, w⟩ := c
    have h' := within_cons.mp h
    unfold write
    split
    · exact putFront_within ha h
    · split
      · exact putFront_within ha h'.2
      · exact within_cons.mpr ⟨h'.1, ih h'.2⟩

theorem storeAll_within {size : Nat} {m : Memory} {stores : List Host.Cell} (h : within m size = true)
    (hs : within stores size = true) : within (storeAll m stores) size = true := by
  unfold storeAll
  induction stores generalizing m with
  | nil => exact h
  | cons c rest ih =>
    obtain ⟨k, v⟩ := c
    have hs' := within_cons.mp hs
    exact ih (write_within v h hs'.1) hs'.2

/-- Canonical stores with equal reads are equal. -/
theorem ext_from {lo : Nat} {m n : Memory} (hm : wfFrom lo m = true) (hn : wfFrom lo n = true)
    (h : ∀ a, read m a = read n a) : m = n := by
  induction m generalizing lo n with
  | nil =>
    cases n with
    | nil => rfl
    | cons c rest =>
      obtain ⟨k, v⟩ := c
      have h' := wfFrom_cons.mp hn
      exact absurd (by simpa [read] using (h k).symm) h'.2.1
  | cons c rest ih =>
    obtain ⟨k, v⟩ := c
    have hm' := wfFrom_cons.mp hm
    cases n with
    | nil => exact absurd (by simpa [read] using h k) hm'.2.1
    | cons d rest' =>
      obtain ⟨l, w⟩ := d
      have hn' := wfFrom_cons.mp hn
      have hkl : k = l := by
        rcases Nat.lt_trichotomy k l with hlt | heq | hgt
        · have e := h k
          rw [read_below (wfFrom_cons.mpr ⟨Nat.le_refl l, hn'.2⟩) hlt] at e
          exact absurd (by simpa [read] using e) hm'.2.1
        · exact heq
        · have e := h l
          rw [read_below (wfFrom_cons.mpr ⟨Nat.le_refl k, hm'.2⟩) hgt] at e
          exact absurd (by simpa [read] using e.symm) hn'.2.1
      subst hkl
      have hvw : v = w := by simpa [read] using h k
      subst hvw
      have hrest : ∀ a, read rest a = read rest' a := by
        intro a
        by_cases hka : k = a
        · subst hka
          rw [read_below hm'.2.2 (by omega), read_below hn'.2.2 (by omega)]
        · simpa [read, hka] using h a
      rw [ih hm'.2.2 hn'.2.2 hrest]

theorem ext {m n : Memory} (hm : wf m = true) (hn : wf n = true) (h : ∀ a, read m a = read n a) :
    m = n := ext_from hm hn h

end Memory

end Sys2Proof.Machine
end

