-- ==== Sys2Proof/Laws/Compositor.lean ====
section
/-! SUPPORT. The spec lemmas of `composite`: which cells it holds, that it is in canonical form, what each
byte of it reads as, and that it is a function of the window alone. -/

namespace Sys2Proof.Machine

theorem Memory.wfFrom_iff_pairwise {lo : Nat} {m : Memory} :
    Memory.wfFrom lo m = true ↔
      (∀ c ∈ m, lo ≤ c.1 ∧ c.2 ≠ unlistedByte) ∧ m.Pairwise (fun c d => c.1 < d.1) := by
  induction m generalizing lo with
  | nil => simp [Memory.wfFrom]
  | cons c rest ih =>
    obtain ⟨k, v⟩ := c
    rw [Memory.wfFrom_cons, ih, List.pairwise_cons]
    constructor
    · rintro ⟨hk, hv, hr, hp⟩
      refine ⟨?_, fun d hd => (hr d hd).1, hp⟩
      intro d hd
      rcases List.mem_cons.mp hd with rfl | hd
      · exact ⟨hk, hv⟩
      · have := (hr d hd).1
        exact ⟨by omega, (hr d hd).2⟩
    · rintro ⟨ha, hk, hp⟩
      exact ⟨(ha _ List.mem_cons_self).1, (ha _ List.mem_cons_self).2,
        fun d hd => ⟨hk d hd, (ha d (List.mem_cons_of_mem _ hd)).2⟩, hp⟩

/-- A byte that does not read as unlisted is listed. -/
theorem Memory.listed_of_read {m : Memory} {a : Nat} (h : Memory.read m a ≠ unlistedByte) :
    (a, Memory.read m a) ∈ m := by
  induction m with
  | nil => exact absurd rfl h
  | cons c rest ih =>
    obtain ⟨k, v⟩ := c
    by_cases hk : k = a
    · subst hk; simp [Memory.read]
    · simp only [Memory.read, if_neg hk] at h ⊢
      exact List.mem_cons_of_mem _ (ih h)

/-- In a canonical store a listed byte reads as listed. -/
theorem Memory.read_of_listed {lo : Nat} {m : Memory} (hm : Memory.wfFrom lo m = true) {a : Nat} {v : Byte}
    (h : (a, v) ∈ m) : Memory.read m a = v := by
  induction m generalizing lo with
  | nil => cases h
  | cons c rest ih =>
    obtain ⟨k, w⟩ := c
    have hm' := Memory.wfFrom_cons.mp hm
    rcases List.mem_cons.mp h with heq | hmem
    · cases heq; simp [Memory.read]
    · have := ((Memory.wfFrom_iff_pairwise.mp hm'.2.2).1 _ hmem).1
      have hk : k ≠ a := by simp only at this; omega
      simp only [Memory.read, if_neg hk]
      exact ih hm'.2.2 hmem

/-- Leaving out cells at other addresses changes no read. -/
theorem Memory.read_filter (p : Nat → Bool) (m : Memory) {a : Nat} (ha : p a = true) :
    Memory.read (m.filter fun c => p c.1) a = Memory.read m a := by
  induction m with
  | nil => rfl
  | cons c rest ih =>
    obtain ⟨k, v⟩ := c
    by_cases hk : k = a
    · subst hk; simp [ha, Memory.read]
    · by_cases hp : p k = true
      · simp [hp, Memory.read, hk, ih]
      · simp [hp, Memory.read, hk, ih]

theorem mem_insertColumn {c x : Nat} {l : List Nat} : x ∈ insertColumn c l ↔ x = c ∨ x ∈ l := by
  induction l with
  | nil => simp [insertColumn]
  | cons d ds ih =>
    unfold insertColumn
    split
    · simp
    · split
      · subst c; simp
      · simp [ih]; tauto

theorem insertColumn_rising {c : Nat} {l : List Nat} (h : l.Pairwise (· < ·)) :
    (insertColumn c l).Pairwise (· < ·) := by
  induction l with
  | nil => simp [insertColumn]
  | cons d ds ih =>
    have h' := List.pairwise_cons.mp h
    unfold insertColumn
    split
    · refine List.pairwise_cons.mpr ⟨?_, h⟩
      intro x hx
      rcases List.mem_cons.mp hx with rfl | hx
      · assumption
      · have := h'.1 x hx; omega
    · split
      · exact h
      · refine List.pairwise_cons.mpr ⟨?_, ih h'.2⟩
        intro x hx
        rcases mem_insertColumn.mp hx with rfl | hx
        · omega
        · exact h'.1 x hx

theorem columnsOf_rising (base : Nat) (row : Memory) : (columnsOf base row).Pairwise (· < ·) := by
  unfold columnsOf
  induction row with
  | nil => simp
  | cons c rest ih => exact insertColumn_rising ih

theorem mem_columnsOf {base x : Nat} {row : Memory} :
    x ∈ columnsOf base row ↔ ∃ c ∈ row, (c.1 - base) / bytesPerColumn = x := by
  unfold columnsOf
  induction row with
  | nil => simp
  | cons c rest ih =>
    rw [List.foldr_cons, mem_insertColumn, ih]
    simp only [List.mem_cons, exists_eq_or_imp]
    constructor
    · rintro (h | h)
      · exact .inl h.symm
      · exact .inr h
    · rintro (h | h)
      · exact .inl h.symm
      · exact .inr h

theorem inWindow_iff {base a : Nat} : inWindow base a = true ↔ base ≤ a ∧ a < base + 7168 := by
  rw [inWindow, Bool.and_eq_true, decide_eq_true_iff, decide_eq_true_iff]; rfl

/-- The window bit of a pixel is read from the cells of its byte-row. -/
theorem windowBit_rowCells {base x y k j : Nat} (m : Memory) (hx : x < 224) (hk : k < 32) (hj : j < 8)
    (hy : y = 8 * k + j) :
    windowBit base (rowCells base (windowCells base m) (bytesPerColumn - 1 - k)) x y =
      windowBit base m x y := by
  have hr : (screenHeight - 1 - y) / 8 = bytesPerColumn - 1 - k := by
    simp only [screenHeight, bytesPerColumn]; omega
  have h1 : ((fun a => (a - base) % bytesPerColumn == bytesPerColumn - 1 - k)
      (windowAddress base x (bytesPerColumn - 1 - k))) = true := by
    simp only [windowAddress, bytesPerColumn, beq_iff_eq]; omega
  have h2 : inWindow base (windowAddress base x (bytesPerColumn - 1 - k)) = true := by
    rw [inWindow_iff]
    simp only [windowAddress, bytesPerColumn]; omega
  unfold windowBit
  rw [hr]
  unfold rowCells windowCells
  rw [Memory.read_filter (fun a => (a - base) % bytesPerColumn == bytesPerColumn - 1 - k) _ h1,
    Memory.read_filter (inWindow base) _ h2]

/-- A pixel that is lit has its column among those with a listed cell, and every such column is one of
the 224. -/
theorem mem_columnsOf_rowCells {base k : Nat} {m : Memory} {x : Nat}
    (hx : x ∈ columnsOf base (rowCells base (windowCells base m) k)) : x < 224 := by
  obtain ⟨c, hc, rfl⟩ := mem_columnsOf.mp hx
  have := inWindow_iff.mp (List.mem_filter.mp (List.mem_filter.mp hc).1).2
  simp only [bytesPerColumn]; omega

theorem column_of_windowBit {base x y k j : Nat} {m : Memory} (hx : x < 224) (hk : k < 32) (hj : j < 8)
    (hy : y = 8 * k + j) (h : windowBit base m x y = true) :
    x ∈ columnsOf base (rowCells base (windowCells base m) (bytesPerColumn - 1 - k)) := by
  rw [← windowBit_rowCells m hx hk hj hy] at h
  unfold windowBit at h
  have hr : (screenHeight - 1 - y) / 8 = bytesPerColumn - 1 - k := by
    simp only [screenHeight, bytesPerColumn]; omega
  rw [hr] at h
  have hne : Memory.read (rowCells base (windowCells base m) (bytesPerColumn - 1 - k))
      (windowAddress base x (bytesPerColumn - 1 - k)) ≠ unlistedByte := by
    intro e; rw [e] at h; simp [unlistedByte] at h
  refine mem_columnsOf.mpr ⟨_, Memory.listed_of_read hne, ?_⟩
  simp only [windowAddress, bytesPerColumn]; omega

theorem mem_litPixel {x y : Nat} {c : Host.Cell} :
    c ∈ litPixel x y ↔ ∃ j < 4, c = (pixelOffset x y + j, 0xFF) := by
  simp [litPixel, bytesPerPixel, eq_comm]

/-- The cells of a composite: the four bytes of each lit pixel. -/
theorem mem_composite {base : Nat} {m : Memory} {c : Host.Cell} :
    c ∈ composite base m ↔
      ∃ x y j, x < 224 ∧ y < 256 ∧ j < 4 ∧ windowBit base m x y = true ∧ c = (pixelOffset x y + j, 0xFF) := by
  unfold composite compositeRow
  simp only [List.mem_flatMap, List.mem_range]
  constructor
  · rintro ⟨k, hk, i, hi, x, hx, hc⟩
    have hk' : k < 32 := hk
    have hx' := mem_columnsOf_rowCells hx
    rw [windowBit_rowCells m hx' hk' hi rfl] at hc
    split at hc
    · obtain ⟨j, hj, rfl⟩ := mem_litPixel.mp hc
      exact ⟨x, 8 * k + i, j, hx', by omega, hj, ‹_›, rfl⟩
    · cases hc
  · rintro ⟨x, y, j, hx, hy, hj, hb, rfl⟩
    have hk : y / 8 < 32 := by omega
    have hi : y % 8 < 8 := by omega
    have he : y = 8 * (y / 8) + y % 8 := by omega
    refine ⟨y / 8, hk, y % 8, hi, x, column_of_windowBit hx hk hi he hb, ?_⟩
    rw [← he, windowBit_rowCells m hx hk hi he, if_pos hb]
    exact mem_litPixel.mpr ⟨j, hj, rfl⟩

theorem pixelOffset_lt {x y x' y' j j' : Nat} (hx : x < 224) (hj : j < 4)
    (h : y < y' ∨ (y = y' ∧ x < x')) : pixelOffset x y + j < pixelOffset x' y' + j' := by
  simp only [pixelOffset, screenWidth, bytesPerPixel]
  rcases h with h | ⟨rfl, h⟩
  · have : (y + 1) * 224 ≤ y' * 224 := Nat.mul_le_mul_right _ h
    omega
  · omega

theorem compositeRow_cells {base k y : Nat} {m : Memory} {c : Host.Cell}
    (h : c ∈ compositeRow base (rowCells base (windowCells base m) k) y) :
    ∃ x j, x < 224 ∧ j < 4 ∧ c.1 = pixelOffset x y + j := by
  obtain ⟨x, hx, hc⟩ := List.mem_flatMap.mp h
  split at hc
  · obtain ⟨j, hj, rfl⟩ := mem_litPixel.mp hc
    exact ⟨x, j, mem_columnsOf_rowCells hx, hj, rfl⟩
  · cases hc

/-- The composite is in rising order. -/
theorem composite_rising (base : Nat) (m : Memory) :
    (composite base m).Pairwise (fun c d => c.1 < d.1) := by
  unfold composite
  refine List.pairwise_flatMap.mpr ⟨?_, ?_⟩
  · intro k _
    refine List.pairwise_flatMap.mpr ⟨?_, ?_⟩
    · intro j _
      refine List.pairwise_flatMap.mpr ⟨?_, ?_⟩
      · intro x _
        split
        · unfold litPixel
          rw [List.pairwise_map]
          exact List.pairwise_lt_range.imp fun h => by simpa using h
        · exact List.Pairwise.nil
      · refine (columnsOf_rising _ _).imp_of_mem ?_
        intro x x' hx hx' hlt c hc d hd
        split at hc
        · split at hd
          · obtain ⟨i, hi, rfl⟩ := mem_litPixel.mp hc
            obtain ⟨i', hi', rfl⟩ := mem_litPixel.mp hd
            exact pixelOffset_lt (mem_columnsOf_rowCells hx) hi (.inr ⟨rfl, hlt⟩)
          · cases hd
        · cases hc
    · refine List.pairwise_lt_range.imp ?_
      intro j j' hlt c hc d hd
      obtain ⟨x, i, hx, hi, he⟩ := compositeRow_cells hc
      obtain ⟨x', i', hx', hi', he'⟩ := compositeRow_cells hd
      rw [he, he']
      exact pixelOffset_lt hx hi (.inl (by omega))
  · refine List.pairwise_lt_range.imp ?_
    intro k k' hlt c hc d hd
    obtain ⟨j, hj, hc⟩ := List.mem_flatMap.mp hc
    obtain ⟨j', hj', hd⟩ := List.mem_flatMap.mp hd
    obtain ⟨x, i, hx, hi, he⟩ := compositeRow_cells hc
    obtain ⟨x', i', hx', hi', he'⟩ := compositeRow_cells hd
    rw [he, he']
    have := List.mem_range.mp hj
    exact pixelOffset_lt hx hi (.inl (by omega))

/-- The composite is in canonical form. -/
theorem composite_wf (base : Nat) (m : Memory) : Memory.wf (composite base m) = true := by
  refine Memory.wfFrom_iff_pairwise.mpr ⟨?_, composite_rising base m⟩
  intro c hc
  obtain ⟨x, y, j, -, -, -, -, rfl⟩ := mem_composite.mp hc
  exact ⟨Nat.zero_le _, by simp [unlistedByte]⟩

/-- The composite lies inside the frame buffer. -/
theorem composite_within (base : Nat) (m : Memory) :
    Memory.within (composite base m) frameBufferSize = true := by
  unfold Memory.within
  rw [List.all_eq_true]
  intro c hc
  obtain ⟨x, y, j, hx, hy, hj, -, rfl⟩ := mem_composite.mp hc
  refine decide_eq_true ?_
  simp only [pixelOffset, screenWidth, bytesPerPixel, frameBufferSize]
  omega

/-- Every byte of every pixel of a composite. -/
theorem read_composite (base : Nat) (m : Memory) {x y j : Nat} (hx : x < 224) (hy : y < 256) (hj : j < 4) :
    Memory.read (composite base m) (pixelOffset x y + j) =
      if windowBit base m x y = true then 0xFF else 0x00 := by
  split
  · exact Memory.read_of_listed (composite_wf base m)
      (mem_composite.mpr ⟨x, y, j, hx, hy, hj, ‹_›, rfl⟩)
  · rename_i hb
    by_contra hne
    obtain ⟨x', y', j', hx', hy', hj', hb', he⟩ := mem_composite.mp (Memory.listed_of_read hne)
    have ha := congrArg Prod.fst he
    simp only [pixelOffset, screenWidth, bytesPerPixel] at ha
    have hxx : x = x' ∧ y = y' := by omega
    rw [hxx.1, hxx.2] at hb
    exact hb hb'

/-- `FbWrite` keeps the canonical form. -/
theorem fbWrite_wf {fb : FrameBuffer} (h : Memory.wf fb = true) (x y : Nat) (l : Bool) :
    Memory.wf (fbWrite fb x y l) = true := Memory.writeBytes_wf h _ _

/-- `FbWrite` sets the four bytes of its pixel and leaves every other byte alone. -/
theorem read_fbWrite {fb : FrameBuffer} (h : Memory.wf fb = true) (x y a : Nat) (l : Bool) :
    Memory.read (fbWrite fb x y l) a =
      if pixelOffset x y ≤ a ∧ a < pixelOffset x y + 4 then (if l then 0xFF else 0x00)
      else Memory.read fb a := by
  unfold fbWrite
  rw [Memory.read_writeBytes h, List.getElem?_replicate, bytesPerPixel]
  by_cases h1 : pixelOffset x y ≤ a
  · by_cases h2 : a < pixelOffset x y + 4
    · have h3 : a - pixelOffset x y < 4 := by omega
      simp [h1, h2, h3]
    · have h3 : ¬ a - pixelOffset x y < 4 := by omega
      simp [h1, h2, h3]
  · simp [h1]

/-- The composite depends on the window bytes only. -/
theorem composite_congr {base : Nat} {m n : Memory}
    (h : ∀ k < vramSize, Memory.read m (base + k) = Memory.read n (base + k)) :
    composite base m = composite base n := by
  refine Memory.ext (composite_wf _ _) (composite_wf _ _) fun a => ?_
  have hb : ∀ x < 224, ∀ y < 256, windowBit base m x y = windowBit base n x y := by
    intro x hx y hy
    unfold windowBit windowAddress
    rw [Nat.add_assoc]
    rw [h]
    simp only [screenHeight, bytesPerColumn, vramSize]; omega
  by_cases ha : a < frameBufferSize
  · have e : a = pixelOffset (a / 4 % 224) (a / 4 / 224) + a % 4 := by
      simp only [pixelOffset, screenWidth, bytesPerPixel]; omega
    have hx : a / 4 % 224 < 224 := by omega
    have hy : a / 4 / 224 < 256 := by simp only [frameBufferSize] at ha; omega
    have hj : a % 4 < 4 := by omega
    rw [e, read_composite _ _ hx hy hj, read_composite _ _ hx hy hj, hb _ hx _ hy]
  · have out : ∀ m : Memory, Memory.read (composite base m) a = unlistedByte := by
      intro m
      by_contra hne
      have := List.all_eq_true.mp (composite_within base m) _ (Memory.listed_of_read hne)
      exact ha (by simpa using this)
    rw [out, out]

end Sys2Proof.Machine
end

