-- ==== Sys2Proof/Laws/Decode.lean ====
section
/-! SUPPORT. The fields of a word: reading back what `mkWord` put there, and every word is made of its
fields. -/

namespace Sys2Proof

/-- Bit `i` of a word made of its fields. -/
theorem getLsbD_mkWord (c : BitVec 4) (s d : Byte) (i : Nat) :
    (mkWord c s d).getLsbD i =
      if i < 8 then d.getLsbD i else if i < 16 then s.getLsbD (i - 8) else c.getLsbD (i - 16) := by
  unfold mkWord
  rw [BitVec.getLsbD_append, BitVec.getLsbD_append]
  by_cases h1 : i < 8
  · simp [h1]
  · by_cases h2 : i < 16
    · have h3 : i - 8 < 8 := by omega
      simp [h1, h2, h3]
    · have h3 : ¬ i - 8 < 8 := by omega
      have h4 : i - 8 - 8 = i - 16 := by omega
      simp [h1, h2, h3, h4]

@[simp] theorem cls_mkWord (c : BitVec 4) (s d : Byte) : (mkWord c s d).cls = c := by
  apply BitVec.eq_of_getLsbD_eq
  intro i hi
  have h1 : ¬ 16 + i < 8 := by omega
  have h2 : ¬ 16 + i < 16 := by omega
  have h3 : 16 + i - 16 = i := by omega
  rw [Word.cls, BitVec.getLsbD_extractLsb', getLsbD_mkWord, if_neg h1, if_neg h2, h3]
  simp [hi]

@[simp] theorem sel_mkWord (c : BitVec 4) (s d : Byte) : (mkWord c s d).sel = s := by
  apply BitVec.eq_of_getLsbD_eq
  intro i hi
  have h1 : ¬ 8 + i < 8 := by omega
  have h2 : 8 + i < 16 := by omega
  have h3 : 8 + i - 8 = i := by omega
  rw [Word.sel, BitVec.getLsbD_extractLsb', getLsbD_mkWord, if_neg h1, if_pos h2, h3]
  simp [hi]

@[simp] theorem data_mkWord (c : BitVec 4) (s d : Byte) : (mkWord c s d).data = d := by
  apply BitVec.eq_of_getLsbD_eq
  intro i hi
  rw [Word.data, BitVec.getLsbD_extractLsb', Nat.zero_add, getLsbD_mkWord, if_pos hi]
  simp [hi]

/-- Every word is made of its fields. -/
theorem mkWord_fields (w : Word) : mkWord w.cls w.sel w.data = w := by
  apply BitVec.eq_of_getLsbD_eq
  intro i hi
  rw [getLsbD_mkWord]
  split
  · simp [Word.data, *]
  · split
    · have h1 : i - 8 < 8 := by omega
      have h2 : 8 + (i - 8) = i := by omega
      simp [Word.sel, h1, h2]
    · have h1 : i - 16 < 4 := by omega
      have h2 : 16 + (i - 16) = i := by omega
      simp [Word.cls, h1, h2]

/-- A number that fits the word's bits is decoded as that word. -/
theorem decodeTableWord_of_lt {nbits w : Nat} (h : w % 2 ^ nbits < 2 ^ 20) :
    decodeTableWord nbits w =
      match decode (BitVec.ofNat 20 (w % 2 ^ nbits)) with
      | .ok i => some i
      | .error _ => none := if_pos h

end Sys2Proof
end

