-- ==== Sys2Proof/Laws/State.lean ====
section
/-! SUPPORT. One lemma per field per named update of the state, so that no later proof unfolds a record
update. -/

namespace Sys2Proof.Machine

variable (s : State)

@[simp] theorem emit_inputPort1 (events : List Event) : (s.emit events).inputPort1 = s.inputPort1 := rfl
@[simp] theorem emit_inputPort2 (events : List Event) : (s.emit events).inputPort2 = s.inputPort2 := rfl
@[simp] theorem emit_shiftLow (events : List Event) : (s.emit events).shiftLow = s.shiftLow := rfl
@[simp] theorem emit_shiftHigh (events : List Event) : (s.emit events).shiftHigh = s.shiftHigh := rfl
@[simp] theorem emit_shiftOffset (events : List Event) : (s.emit events).shiftOffset = s.shiftOffset := rfl
@[simp] theorem emit_lastSoundPort3 (events : List Event) : (s.emit events).lastSoundPort3 = s.lastSoundPort3 := rfl
@[simp] theorem emit_lastSoundPort5 (events : List Event) : (s.emit events).lastSoundPort5 = s.lastSoundPort5 := rfl
@[simp] theorem emit_phase (events : List Event) : (s.emit events).phase = s.phase := rfl
@[simp] theorem emit_tickBase (events : List Event) : (s.emit events).tickBase = s.tickBase := rfl
@[simp] theorem emit_frameBuffer (events : List Event) : (s.emit events).frameBuffer = s.frameBuffer := rfl
@[simp] theorem emit_clipTable (events : List Event) : (s.emit events).clipTable = s.clipTable := rfl
@[simp] theorem emit_run (events : List Event) : (s.emit events).run = s.run := rfl
@[simp] theorem emit_turn (events : List Event) : (s.emit events).turn = s.turn := rfl
@[simp] theorem emit_mem (events : List Event) : (s.emit events).mem = s.mem := rfl
@[simp] theorem emit_inte (events : List Event) : (s.emit events).inte = s.inte := rfl
@[simp] theorem emit_now (events : List Event) : (s.emit events).now = s.now := rfl
@[simp] theorem emit_deliveryStores (events : List Event) : (s.emit events).deliveryStores = s.deliveryStores := rfl
@[simp] theorem emit_out (events : List Event) : (s.emit events).out = s.out ++ events := rfl
@[simp] theorem emit_diagnostic (events : List Event) : (s.emit events).diagnostic = s.diagnostic := rfl
@[simp] theorem emit_params (events : List Event) : (s.emit events).params = s.params := rfl
@[simp] theorem emit_moves (events : List Event) : (s.emit events).moves = s.moves := rfl

@[simp] theorem pressControl_inputPort1 (ctl : Control) : (pressControl ctl s).inputPort1 = s.inputPort1 ||| mask1 ctl := rfl
@[simp] theorem pressControl_inputPort2 (ctl : Control) : (pressControl ctl s).inputPort2 = s.inputPort2 ||| mask2 ctl := rfl
@[simp] theorem pressControl_shiftLow (ctl : Control) : (pressControl ctl s).shiftLow = s.shiftLow := rfl
@[simp] theorem pressControl_shiftHigh (ctl : Control) : (pressControl ctl s).shiftHigh = s.shiftHigh := rfl
@[simp] theorem pressControl_shiftOffset (ctl : Control) : (pressControl ctl s).shiftOffset = s.shiftOffset := rfl
@[simp] theorem pressControl_lastSoundPort3 (ctl : Control) : (pressControl ctl s).lastSoundPort3 = s.lastSoundPort3 := rfl
@[simp] theorem pressControl_lastSoundPort5 (ctl : Control) : (pressControl ctl s).lastSoundPort5 = s.lastSoundPort5 := rfl
@[simp] theorem pressControl_phase (ctl : Control) : (pressControl ctl s).phase = s.phase := rfl
@[simp] theorem pressControl_tickBase (ctl : Control) : (pressControl ctl s).tickBase = s.tickBase := rfl
@[simp] theorem pressControl_frameBuffer (ctl : Control) : (pressControl ctl s).frameBuffer = s.frameBuffer := rfl
@[simp] theorem pressControl_clipTable (ctl : Control) : (pressControl ctl s).clipTable = s.clipTable := rfl
@[simp] theorem pressControl_run (ctl : Control) : (pressControl ctl s).run = s.run := rfl
@[simp] theorem pressControl_turn (ctl : Control) : (pressControl ctl s).turn = s.turn := rfl
@[simp] theorem pressControl_mem (ctl : Control) : (pressControl ctl s).mem = s.mem := rfl
@[simp] theorem pressControl_inte (ctl : Control) : (pressControl ctl s).inte = s.inte := rfl
@[simp] theorem pressControl_now (ctl : Control) : (pressControl ctl s).now = s.now := rfl
@[simp] theorem pressControl_deliveryStores (ctl : Control) : (pressControl ctl s).deliveryStores = s.deliveryStores := rfl
@[simp] theorem pressControl_out (ctl : Control) : (pressControl ctl s).out = s.out := rfl
@[simp] theorem pressControl_diagnostic (ctl : Control) : (pressControl ctl s).diagnostic = s.diagnostic := rfl
@[simp] theorem pressControl_params (ctl : Control) : (pressControl ctl s).params = s.params := rfl
@[simp] theorem pressControl_moves (ctl : Control) : (pressControl ctl s).moves = s.moves := rfl

@[simp] theorem releaseControl_inputPort1 (ctl : Control) : (releaseControl ctl s).inputPort1 = s.inputPort1 &&& ~~~mask1 ctl := rfl
@[simp] theorem releaseControl_inputPort2 (ctl : Control) : (releaseControl ctl s).inputPort2 = s.inputPort2 &&& ~~~mask2 ctl := rfl
@[simp] theorem releaseControl_shiftLow (ctl : Control) : (releaseControl ctl s).shiftLow = s.shiftLow := rfl
@[simp] theorem releaseControl_shiftHigh (ctl : Control) : (releaseControl ctl s).shiftHigh = s.shiftHigh := rfl
@[simp] theorem releaseControl_shiftOffset (ctl : Control) : (releaseControl ctl s).shiftOffset = s.shiftOffset := rfl
@[simp] theorem releaseControl_lastSoundPort3 (ctl : Control) : (releaseControl ctl s).lastSoundPort3 = s.lastSoundPort3 := rfl
@[simp] theorem releaseControl_lastSoundPort5 (ctl : Control) : (releaseControl ctl s).lastSoundPort5 = s.lastSoundPort5 := rfl
@[simp] theorem releaseControl_phase (ctl : Control) : (releaseControl ctl s).phase = s.phase := rfl
@[simp] theorem releaseControl_tickBase (ctl : Control) : (releaseControl ctl s).tickBase = s.tickBase := rfl
@[simp] theorem releaseControl_frameBuffer (ctl : Control) : (releaseControl ctl s).frameBuffer = s.frameBuffer := rfl
@[simp] theorem releaseControl_clipTable (ctl : Control) : (releaseControl ctl s).clipTable = s.clipTable := rfl
@[simp] theorem releaseControl_run (ctl : Control) : (releaseControl ctl s).run = s.run := rfl
@[simp] theorem releaseControl_turn (ctl : Control) : (releaseControl ctl s).turn = s.turn := rfl
@[simp] theorem releaseControl_mem (ctl : Control) : (releaseControl ctl s).mem = s.mem := rfl
@[simp] theorem releaseControl_inte (ctl : Control) : (releaseControl ctl s).inte = s.inte := rfl
@[simp] theorem releaseControl_now (ctl : Control) : (releaseControl ctl s).now = s.now := rfl
@[simp] theorem releaseControl_deliveryStores (ctl : Control) : (releaseControl ctl s).deliveryStores = s.deliveryStores := rfl
@[simp] theorem releaseControl_out (ctl : Control) : (releaseControl ctl s).out = s.out := rfl
@[simp] theorem releaseControl_diagnostic (ctl : Control) : (releaseControl ctl s).diagnostic = s.diagnostic := rfl
@[simp] theorem releaseControl_params (ctl : Control) : (releaseControl ctl s).params = s.params := rfl
@[simp] theorem releaseControl_moves (ctl : Control) : (releaseControl ctl s).moves = s.moves := rfl

@[simp] theorem deliverInterrupt_inputPort1 : (deliverInterrupt s).inputPort1 = s.inputPort1 := rfl
@[simp] theorem deliverInterrupt_inputPort2 : (deliverInterrupt s).inputPort2 = s.inputPort2 := rfl
@[simp] theorem deliverInterrupt_shiftLow : (deliverInterrupt s).shiftLow = s.shiftLow := rfl
@[simp] theorem deliverInterrupt_shiftHigh : (deliverInterrupt s).shiftHigh = s.shiftHigh := rfl
@[simp] theorem deliverInterrupt_shiftOffset : (deliverInterrupt s).shiftOffset = s.shiftOffset := rfl
@[simp] theorem deliverInterrupt_lastSoundPort3 : (deliverInterrupt s).lastSoundPort3 = s.lastSoundPort3 := rfl
@[simp] theorem deliverInterrupt_lastSoundPort5 : (deliverInterrupt s).lastSoundPort5 = s.lastSoundPort5 := rfl
@[simp] theorem deliverInterrupt_phase : (deliverInterrupt s).phase = s.phase.toggle := rfl
@[simp] theorem deliverInterrupt_tickBase : (deliverInterrupt s).tickBase = s.tickBase := rfl
@[simp] theorem deliverInterrupt_frameBuffer : (deliverInterrupt s).frameBuffer = s.frameBuffer := rfl
@[simp] theorem deliverInterrupt_clipTable : (deliverInterrupt s).clipTable = s.clipTable := rfl
@[simp] theorem deliverInterrupt_run : (deliverInterrupt s).run = s.run := rfl
@[simp] theorem deliverInterrupt_turn : (deliverInterrupt s).turn = s.turn := rfl
@[simp] theorem deliverInterrupt_mem : (deliverInterrupt s).mem = Memory.storeAll s.mem s.deliveryStores := rfl
@[simp] theorem deliverInterrupt_inte : (deliverInterrupt s).inte = s.inte := rfl
@[simp] theorem deliverInterrupt_now : (deliverInterrupt s).now = s.now := rfl
@[simp] theorem deliverInterrupt_deliveryStores : (deliverInterrupt s).deliveryStores = s.deliveryStores := rfl
@[simp] theorem deliverInterrupt_out : (deliverInterrupt s).out = s.out ++ [.interrupt s.phase.vector] := rfl
@[simp] theorem deliverInterrupt_diagnostic : (deliverInterrupt s).diagnostic = s.diagnostic := rfl
@[simp] theorem deliverInterrupt_params : (deliverInterrupt s).params = s.params := rfl
@[simp] theorem deliverInterrupt_moves : (deliverInterrupt s).moves = s.moves := rfl

@[simp] theorem stopRun_inputPort1 : (stopRun s).inputPort1 = s.inputPort1 := rfl
@[simp] theorem stopRun_inputPort2 : (stopRun s).inputPort2 = s.inputPort2 := rfl
@[simp] theorem stopRun_shiftLow : (stopRun s).shiftLow = s.shiftLow := rfl
@[simp] theorem stopRun_shiftHigh : (stopRun s).shiftHigh = s.shiftHigh := rfl
@[simp] theorem stopRun_shiftOffset : (stopRun s).shiftOffset = s.shiftOffset := rfl
@[simp] theorem stopRun_lastSoundPort3 : (stopRun s).lastSoundPort3 = s.lastSoundPort3 := rfl
@[simp] theorem stopRun_lastSoundPort5 : (stopRun s).lastSoundPort5 = s.lastSoundPort5 := rfl
@[simp] theorem stopRun_phase : (stopRun s).phase = s.phase := rfl
@[simp] theorem stopRun_tickBase : (stopRun s).tickBase = s.tickBase := rfl
@[simp] theorem stopRun_frameBuffer : (stopRun s).frameBuffer = s.frameBuffer := rfl
@[simp] theorem stopRun_clipTable : (stopRun s).clipTable = s.clipTable := rfl
@[simp] theorem stopRun_run : (stopRun s).run = .stopped := rfl
@[simp] theorem stopRun_turn : (stopRun s).turn = s.turn := rfl
@[simp] theorem stopRun_mem : (stopRun s).mem = s.mem := rfl
@[simp] theorem stopRun_inte : (stopRun s).inte = s.inte := rfl
@[simp] theorem stopRun_now : (stopRun s).now = s.now := rfl
@[simp] theorem stopRun_deliveryStores : (stopRun s).deliveryStores = s.deliveryStores := rfl
@[simp] theorem stopRun_out : (stopRun s).out = s.out := rfl
@[simp] theorem stopRun_diagnostic : (stopRun s).diagnostic = s.diagnostic := rfl
@[simp] theorem stopRun_params : (stopRun s).params = s.params := rfl
@[simp] theorem stopRun_moves : (stopRun s).moves = s.moves := rfl

@[simp] theorem failRun_inputPort1 (b : Byte) (a : Nat) : (failRun b a s).inputPort1 = s.inputPort1 := rfl
@[simp] theorem failRun_inputPort2 (b : Byte) (a : Nat) : (failRun b a s).inputPort2 = s.inputPort2 := rfl
@[simp] theorem failRun_shiftLow (b : Byte) (a : Nat) : (failRun b a s).shiftLow = s.shiftLow := rfl
@[simp] theorem failRun_shiftHigh (b : Byte) (a : Nat) : (failRun b a s).shiftHigh = s.shiftHigh := rfl
@[simp] theorem failRun_shiftOffset (b : Byte) (a : Nat) : (failRun b a s).shiftOffset = s.shiftOffset := rfl
@[simp] theorem failRun_lastSoundPort3 (b : Byte) (a : Nat) : (failRun b a s).lastSoundPort3 = s.lastSoundPort3 := rfl
@[simp] theorem failRun_lastSoundPort5 (b : Byte) (a : Nat) : (failRun b a s).lastSoundPort5 = s.lastSoundPort5 := rfl
@[simp] theorem failRun_phase (b : Byte) (a : Nat) : (failRun b a s).phase = s.phase := rfl
@[simp] theorem failRun_tickBase (b : Byte) (a : Nat) : (failRun b a s).tickBase = s.tickBase := rfl
@[simp] theorem failRun_frameBuffer (b : Byte) (a : Nat) : (failRun b a s).frameBuffer = s.frameBuffer := rfl
@[simp] theorem failRun_clipTable (b : Byte) (a : Nat) : (failRun b a s).clipTable = s.clipTable := rfl
@[simp] theorem failRun_run (b : Byte) (a : Nat) : (failRun b a s).run = .stopped := rfl
@[simp] theorem failRun_turn (b : Byte) (a : Nat) : (failRun b a s).turn = s.turn := rfl
@[simp] theorem failRun_mem (b : Byte) (a : Nat) : (failRun b a s).mem = s.mem := rfl
@[simp] theorem failRun_inte (b : Byte) (a : Nat) : (failRun b a s).inte = s.inte := rfl
@[simp] theorem failRun_now (b : Byte) (a : Nat) : (failRun b a s).now = s.now := rfl
@[simp] theorem failRun_deliveryStores (b : Byte) (a : Nat) : (failRun b a s).deliveryStores = s.deliveryStores := rfl
@[simp] theorem failRun_out (b : Byte) (a : Nat) : (failRun b a s).out = s.out := rfl
@[simp] theorem failRun_diagnostic (b : Byte) (a : Nat) : (failRun b a s).diagnostic = some ⟨b, a⟩ := rfl
@[simp] theorem failRun_params (b : Byte) (a : Nat) : (failRun b a s).params = s.params := rfl
@[simp] theorem failRun_moves (b : Byte) (a : Nat) : (failRun b a s).moves = s.moves := rfl

@[simp] theorem redraw_inputPort1 : (redraw s).inputPort1 = s.inputPort1 := rfl
@[simp] theorem redraw_inputPort2 : (redraw s).inputPort2 = s.inputPort2 := rfl
@[simp] theorem redraw_shiftLow : (redraw s).shiftLow = s.shiftLow := rfl
@[simp] theorem redraw_shiftHigh : (redraw s).shiftHigh = s.shiftHigh := rfl
@[simp] theorem redraw_shiftOffset : (redraw s).shiftOffset = s.shiftOffset := rfl
@[simp] theorem redraw_lastSoundPort3 : (redraw s).lastSoundPort3 = s.lastSoundPort3 := rfl
@[simp] theorem redraw_lastSoundPort5 : (redraw s).lastSoundPort5 = s.lastSoundPort5 := rfl
@[simp] theorem redraw_phase : (redraw s).phase = s.phase := rfl
@[simp] theorem redraw_tickBase : (redraw s).tickBase = s.tickBase := rfl
@[simp] theorem redraw_frameBuffer : (redraw s).frameBuffer = composite s.params.vramBase s.mem := rfl
@[simp] theorem redraw_clipTable : (redraw s).clipTable = s.clipTable := rfl
@[simp] theorem redraw_run : (redraw s).run = s.run := rfl
@[simp] theorem redraw_turn : (redraw s).turn = s.turn := rfl
@[simp] theorem redraw_mem : (redraw s).mem = s.mem := rfl
@[simp] theorem redraw_inte : (redraw s).inte = s.inte := rfl
@[simp] theorem redraw_now : (redraw s).now = s.now := rfl
@[simp] theorem redraw_deliveryStores : (redraw s).deliveryStores = s.deliveryStores := rfl
@[simp] theorem redraw_out : (redraw s).out = s.out ++ [.frame (composite s.params.vramBase s.mem)] := rfl
@[simp] theorem redraw_diagnostic : (redraw s).diagnostic = s.diagnostic := rfl
@[simp] theorem redraw_params : (redraw s).params = s.params := rfl
@[simp] theorem redraw_moves : (redraw s).moves = s.moves := rfl

@[simp] theorem resetBaseline_inputPort1 : (resetBaseline s).inputPort1 = s.inputPort1 := rfl
@[simp] theorem resetBaseline_inputPort2 : (resetBaseline s).inputPort2 = s.inputPort2 := rfl
@[simp] theorem resetBaseline_shiftLow : (resetBaseline s).shiftLow = s.shiftLow := rfl
@[simp] theorem resetBaseline_shiftHigh : (resetBaseline s).shiftHigh = s.shiftHigh := rfl
@[simp] theorem resetBaseline_shiftOffset : (resetBaseline s).shiftOffset = s.shiftOffset := rfl
@[simp] theorem resetBaseline_lastSoundPort3 : (resetBaseline s).lastSoundPort3 = s.lastSoundPort3 := rfl
@[simp] theorem resetBaseline_lastSoundPort5 : (resetBaseline s).lastSoundPort5 = s.lastSoundPort5 := rfl
@[simp] theorem resetBaseline_phase : (resetBaseline s).phase = s.phase := rfl
@[simp] theorem resetBaseline_tickBase : (resetBaseline s).tickBase = s.now := rfl
@[simp] theorem resetBaseline_frameBuffer : (resetBaseline s).frameBuffer = s.frameBuffer := rfl
@[simp] theorem resetBaseline_clipTable : (resetBaseline s).clipTable = s.clipTable := rfl
@[simp] theorem resetBaseline_run : (resetBaseline s).run = s.run := rfl
@[simp] theorem resetBaseline_turn : (resetBaseline s).turn = s.turn := rfl
@[simp] theorem resetBaseline_mem : (resetBaseline s).mem = s.mem := rfl
@[simp] theorem resetBaseline_inte : (resetBaseline s).inte = s.inte := rfl
@[simp] theorem resetBaseline_now : (resetBaseline s).now = s.now := rfl
@[simp] theorem resetBaseline_deliveryStores : (resetBaseline s).deliveryStores = s.deliveryStores := rfl
@[simp] theorem resetBaseline_out : (resetBaseline s).out = s.out := rfl
@[simp] theorem resetBaseline_diagnostic : (resetBaseline s).diagnostic = s.diagnostic := rfl
@[simp] theorem resetBaseline_params : (resetBaseline s).params = s.params := rfl
@[simp] theorem resetBaseline_moves : (resetBaseline s).moves = s.moves := rfl

end Sys2Proof.Machine
end

