-- ==== Sys2Proof/Laws/Loop.lean ====
section
/-! SUPPORT. What the main loop can do: presenting moves, one after another, while the run goes on. -/

namespace Sys2Proof.Machine

theorem andThen_next {o : Host.Outcome State Fault Refusal} {f : State → Host.Outcome State Fault Refusal}
    {t : State} (h : andThen o f = .next t) : ∃ u, o = .next u ∧ f u = .next t := by
  cases o with
  | next u => exact ⟨u, rfl, h⟩
  | fault r => cases h
  | refused r => cases h

theorem runMoves_cons {s : State} (h : s.run = .running) (m : Move) (rest : List Move) :
    runMoves (m :: rest) s = andThen (runMove m s) (runMoves rest) := by
  simp only [runMoves, h]

theorem runMoves_of_stopped {s : State} (h : s.run = .stopped) (ms : List Move) : runMoves ms s = .next s := by
  cases ms with
  | nil => rfl
  | cons m rest => simp only [runMoves, h]

theorem mainLoop_of_stopped {s : State} (h : s.run = .stopped) (its : List Iteration) :
    mainLoop its s = .next s := by
  cases its with
  | nil => rfl
  | cons it rest => simp only [mainLoop, h]

theorem runMoves_append (ms ns : List Move) (s : State) :
    runMoves (ms ++ ns) s = andThen (runMoves ms s) (runMoves ns) := by
  induction ms generalizing s with
  | nil => rfl
  | cons m rest ih =>
    cases hr : s.run with
    | stopped => simp only [runMoves_of_stopped hr, andThen]
    | running =>
      rw [List.cons_append, runMoves_cons hr, runMoves_cons hr]
      cases runMove m s with
      | next u => exact ih u
      | fault r => rfl
      | refused r => rfl

/-- The loop is its iterations' moves, presented one after another. -/
theorem mainLoop_eq_runMoves (its : List Iteration) (s : State) :
    mainLoop its s = runMoves (its.flatMap Iteration.moves) s := by
  induction its generalizing s with
  | nil => rfl
  | cons it rest ih =>
    cases hr : s.run with
    | stopped => rw [mainLoop_of_stopped hr, runMoves_of_stopped hr]
    | running =>
      rw [List.flatMap_cons, runMoves_append]
      simp only [mainLoop, hr]
      cases runMoves it.moves s with
      | next u => exact ih u
      | fault r => rfl
      | refused r => rfl

/-- A presented word that decodes, in its part of the iteration, has the effect of its transaction. -/
theorem runMove_word {s : State} {w : Word} {i : Instr} (h : Accepting s) (ht : s.turn = (issuerOf i).turn)
    (hd : decode w = .ok i) :
    runMove (.transaction w) s = .next (effect i { s with turn := (issuerOf i).turnAfter }) := by
  rw [runMove, whenAccepted_of_accepting h]
  simp only [runWord, hd]
  rw [inTurn_of_turn ht]
  exact exec_of_accepting (s := { s with turn := (issuerOf i).turnAfter }) h i

/-- No transaction looks at where the iteration stands. -/
@[simp] theorem effect_turn (i : Instr) (s : State) : (effect i s).turn = s.turn := by
  cases i <;> try rfl
  simp only [effect, dueTick]
  split
  · split <;> rfl
  · rfl

/-- No transaction changes the parameters. -/
@[simp] theorem effect_params (i : Instr) (s : State) : (effect i s).params = s.params := by
  cases i <;> try rfl
  simp only [effect, dueTick]
  split
  · split <;> rfl
  · rfl

/-- Only the press of quit changes whether the loop runs. -/
theorem effect_run {i : Instr} (hi : i ≠ .keydownQuit) (s : State) : (effect i s).run = s.run := by
  cases i <;> first | rfl | exact absurd rfl hi | skip
  simp only [effect, dueTick]
  split
  · split <;> rfl
  · rfl

theorem accepting_effect {i : Instr} {s : State} (h : Accepting s) (hi : i ≠ .keydownQuit) :
    Accepting (effect i s) :=
  ⟨by rw [effect_params]; exact h.1, by rw [effect_run hi]; exact h.2⟩

end Sys2Proof.Machine
end

