-- ==== Sys2Proof/Laws/Operands.lean ====
section
/-! SUPPORT. One spec lemma for each operand form and for the clip events. -/

namespace Sys2Proof.Machine

/-- The stored offset as a number: the data byte modulo 8. -/
theorem offsetField_toNat (v : Byte) : (offsetField v).toNat = v.toNat % 8 := by
  simp [offsetField]

/-- The 16-bit value is the two latches side by side. -/
theorem shiftValue_eq_append (hi lo : Byte) : shiftValue hi lo = hi ++ lo := by
  apply BitVec.eq_of_getLsbD_eq
  intro i hi'
  unfold shiftValue
  rw [BitVec.getLsbD_append]
  by_cases h : i < 8
  · simp [h, hi']
  · have h1 : i - 8 < 8 := by omega
    simp [h, hi', BitVec.getLsbD_of_ge lo i (by omega)]

/-- Bit `i` of the shift window is bit `i + (8 - offset)` of the 16-bit value. -/
theorem getLsbD_shiftWindow (hi lo : Byte) (offset : BitVec 3) {i : Nat} (h : i < 8) :
    (shiftWindow hi lo offset).getLsbD i = (hi ++ lo).getLsbD (8 - offset.toNat + i) := by
  rw [shiftWindow, shiftValue_eq_append, BitVec.getLsbD_setWidth, BitVec.getLsbD_ushiftRight]
  simp [h]

/-- No mask holds a bit that no control drives. -/
theorem masks_undriven (ctl : Control) : mask1 ctl &&& undrivenMask1 = 0 ∧ mask2 ctl &&& undrivenMask2 = 0 := by
  cases ctl <;> decide

/-- The events of a sound write are clips. -/
theorem clipEvents_clip {soundMap : List (Nat × Fin 9)} {value last : Byte} {e : Event}
    (h : e ∈ clipEvents soundMap value last) :
    ∃ line ∈ soundMap, e = .clip line.2 ∧ (risingLines value last).getLsbD line.1 = true := by
  obtain ⟨line, hl, he⟩ := List.mem_filterMap.mp h
  split at he
  · cases he; exact ⟨line, hl, rfl, ‹_›⟩
  · cases he

@[simp] theorem vectorsOf_clipEvents (soundMap : List (Nat × Fin 9)) (value last : Byte) :
    vectorsOf (clipEvents soundMap value last) = [] := by
  refine List.filterMap_eq_nil_iff.mpr fun e he => ?_
  obtain ⟨line, -, rfl, -⟩ := clipEvents_clip he
  rfl

@[simp] theorem framesOf_clipEvents (soundMap : List (Nat × Fin 9)) (value last : Byte) :
    framesOf (clipEvents soundMap value last) = [] := by
  refine List.filterMap_eq_nil_iff.mpr fun e he => ?_
  obtain ⟨line, -, rfl, -⟩ := clipEvents_clip he
  rfl

@[simp] theorem vectorsOf_append (a b : List Event) : vectorsOf (a ++ b) = vectorsOf a ++ vectorsOf b :=
  List.filterMap_append

@[simp] theorem framesOf_append (a b : List Event) : framesOf (a ++ b) = framesOf a ++ framesOf b :=
  List.filterMap_append

@[simp] theorem clipsOf_append (a b : List Event) : clipsOf (a ++ b) = clipsOf a ++ clipsOf b :=
  List.filterMap_append

end Sys2Proof.Machine
end

