-- ==== Sys2Proof/Laws/PerInstr.lean ====
section
/-! SUPPORT. Statements about every constructor of `Instr`, one lemma a constructor. -/

namespace Sys2Proof.Laws.EncodeClass

/-- The class of a transaction (R81). -/
def classOf : Instr → BitVec 4
  | .in1 | .in2 | .in3 | .inOther _ => 0
  | .out2 _ | .out3 _ | .out4 _ | .out5 _ | .outOther _ _ => 1
  | .keyupCoin | .keyupPlayer2Start | .keyupPlayer1Start | .keyupTilt => 2
  | .keyupFire | .keyupLeft | .keyupRight | .keyupQuit | .keyupOther _ => 2
  | .keydownCoin | .keydownPlayer2Start | .keydownPlayer1Start | .keydownTilt => 3
  | .keydownFire | .keydownLeft | .keydownRight | .keydownQuit | .keydownOther _ => 3
  | .poll => 4

/-- The encoding of a transaction carries its class (R80, R81). -/
def Statement (i : Instr) : Prop := (encode i).cls = classOf i

theorem in1 : Statement .in1 := cls_mkWord _ _ _
theorem in2 : Statement .in2 := cls_mkWord _ _ _
theorem in3 : Statement .in3 := cls_mkWord _ _ _
theorem inOther (port : Byte) : Statement (.inOther port) := cls_mkWord _ _ _
theorem out2 (v : Byte) : Statement (.out2 v) := cls_mkWord _ _ _
theorem out3 (v : Byte) : Statement (.out3 v) := cls_mkWord _ _ _
theorem out4 (v : Byte) : Statement (.out4 v) := cls_mkWord _ _ _
theorem out5 (v : Byte) : Statement (.out5 v) := cls_mkWord _ _ _
theorem outOther (port v : Byte) : Statement (.outOther port v) := cls_mkWord _ _ _
theorem keyupCoin : Statement .keyupCoin := cls_mkWord _ _ _
theorem keyupPlayer2Start : Statement .keyupPlayer2Start := cls_mkWord _ _ _
theorem keyupPlayer1Start : Statement .keyupPlayer1Start := cls_mkWord _ _ _
theorem keyupTilt : Statement .keyupTilt := cls_mkWord _ _ _
theorem keyupFire : Statement .keyupFire := cls_mkWord _ _ _
theorem keyupLeft : Statement .keyupLeft := cls_mkWord _ _ _
theorem keyupRight : Statement .keyupRight := cls_mkWord _ _ _
theorem keyupQuit : Statement .keyupQuit := cls_mkWord _ _ _
theorem keyupOther (code : Byte) : Statement (.keyupOther code) := cls_mkWord _ _ _
theorem keydownCoin : Statement .keydownCoin := cls_mkWord _ _ _
theorem keydownPlayer2Start : Statement .keydownPlayer2Start := cls_mkWord _ _ _
theorem keydownPlayer1Start : Statement .keydownPlayer1Start := cls_mkWord _ _ _
theorem keydownTilt : Statement .keydownTilt := cls_mkWord _ _ _
theorem keydownFire : Statement .keydownFire := cls_mkWord _ _ _
theorem keydownLeft : Statement .keydownLeft := cls_mkWord _ _ _
theorem keydownRight : Statement .keydownRight := cls_mkWord _ _ _
theorem keydownQuit : Statement .keydownQuit := cls_mkWord _ _ _
theorem keydownOther (code : Byte) : Statement (.keydownOther code) := cls_mkWord _ _ _
theorem poll : Statement .poll := cls_mkWord _ _ _

end Sys2Proof.Laws.EncodeClass
end

