-- ==== Sys2Proof/Laws/Scheduler.lean ====
section
/-! SUPPORT. What a POLL can do: nothing, the baseline alone, or the whole tick. -/

namespace Sys2Proof.Machine

theorem isDue_iff (s : State) :
    isDue s = true ↔ (s.params.tickThreshold : Int) ≤ (s.now : Int) - (s.tickBase : Int) :=
  decide_eq_true_iff

/-- A poll that fires. -/
theorem effect_poll_of_fires {s : State} (h : Fires s) : effect .poll s = resetBaseline (fireTick s) := by
  have hd : isDue s = true := (isDue_iff s).mpr h.1
  simp [effect, hd, dueTick, h.2]

/-- A poll that does not fire is not due, or sets the baseline alone. -/
theorem effect_poll_of_not_fires {s : State} (h : ¬ Fires s) :
    (isDue s = false ∧ effect .poll s = s) ∨ (isDue s = true ∧ effect .poll s = resetBaseline s) := by
  cases hd : isDue s with
  | false => exact .inl ⟨rfl, by simp [effect, hd]⟩
  | true =>
    have hi : s.inte = false := by
      cases hi : s.inte with
      | false => rfl
      | true => exact absurd ⟨(isDue_iff s).mp hd, hi⟩ h
    exact .inr ⟨rfl, by simp [effect, hd, dueTick, hi]⟩

end Sys2Proof.Machine
end

