-- ==== Sys2Proof/Tests/Slice0.lean ====
section
/-! SUPPORT. Tests: ill-formed terms that WellFormed refuses, words written out from the spec's encoding,
one or two steps per transaction with the expected values of `spec/95_test_vectors.md`, and a witness
for the hypotheses of each statement. Every expected value is the spec's own; its vector is named. -/

namespace Sys2Proof.Tests

open Sys2Proof.Machine

/-- A view of the next state of an outcome. -/
def after {α : Type} (o : Host.Outcome State Fault Refusal) (f : State → α) : Option α :=
  match o with
  | .next t => some (f t)
  | .fault _ => none
  | .refused _ => none

/-! ### WellFormed refuses -/

theorem test_wf_in_mapped : WellFormed (.inOther 1) = false ∧ WellFormed (.inOther 3) = false := by decide
theorem test_wf_in_unmapped : WellFormed (.inOther 0) = true ∧ WellFormed (.inOther 4) = true := by decide
theorem test_wf_out_mapped : WellFormed (.outOther 2 0) = false ∧ WellFormed (.outOther 5 0) = false := by
  decide
theorem test_wf_out_unmapped : WellFormed (.outOther 1 0) = true ∧ WellFormed (.outOther 6 0) = true := by
  decide
theorem test_wf_keyup_code : WellFormed (.keyupOther 7) = false ∧ WellFormed (.keyupOther 8) = true := by
  decide
theorem test_wf_keydown_code : WellFormed (.keydownOther 0) = false ∧ WellFormed (.keydownOther 0xFF) = true := by
  decide

/-! ### Decoding: words written out from R80 (class, sel, data), vectors V6.1 to V6.24 -/

theorem test_decode_in : decode 0b0000_00000001_00000000#20 = .ok .in1 ∧
    decode 0b0000_00000010_00000000#20 = .ok .in2 ∧ decode 0b0000_00000011_00000000#20 = .ok .in3 ∧
    decode 0b0000_00000100_00000000#20 = .ok (.inOther 4) ∧
    decode 0b0000_11111111_00000000#20 = .ok (.inOther 0xFF) := by decide
theorem test_decode_in_dont_care : decode 0b0000_00000001_11111111#20 = .ok .in1 := by decide
theorem test_decode_out : decode 0b0001_00000010_11111111#20 = .ok (.out2 0xFF) ∧
    decode 0b0001_00000011_01010101#20 = .ok (.out3 0x55) ∧
    decode 0b0001_00000100_10101010#20 = .ok (.out4 0xAA) ∧
    decode 0b0001_00000101_00000000#20 = .ok (.out5 0x00) ∧
    decode 0b0001_00000001_00000000#20 = .ok (.outOther 1 0) ∧
    decode 0b0001_00000110_00000000#20 = .ok (.outOther 6 0) := by decide
theorem test_decode_keyup : decode 0b0010_00000000_00000000#20 = .ok .keyupCoin ∧
    decode 0b0010_00000001_00000000#20 = .ok .keyupPlayer2Start ∧
    decode 0b0010_00000010_00000000#20 = .ok .keyupPlayer1Start ∧
    decode 0b0010_00000011_00000000#20 = .ok .keyupTilt ∧
    decode 0b0010_00000100_00000000#20 = .ok .keyupFire ∧
    decode 0b0010_00000101_00000000#20 = .ok .keyupLeft ∧
    decode 0b0010_00000110_00000000#20 = .ok .keyupRight ∧
    decode 0b0010_00000111_00000000#20 = .ok .keyupQuit ∧
    decode 0b0010_00001000_00000000#20 = .ok (.keyupOther 8) := by decide
theorem test_decode_keydown : decode 0b0011_00000000_00000000#20 = .ok .keydownCoin ∧
    decode 0b0011_00000001_00000000#20 = .ok .keydownPlayer2Start ∧
    decode 0b0011_00000010_00000000#20 = .ok .keydownPlayer1Start ∧
    decode 0b0011_00000011_00000000#20 = .ok .keydownTilt ∧
    decode 0b0011_00000100_00000000#20 = .ok .keydownFire ∧
    decode 0b0011_00000101_00000000#20 = .ok .keydownLeft ∧
    decode 0b0011_00000110_00000000#20 = .ok .keydownRight ∧
    decode 0b0011_00000111_10101010#20 = .ok .keydownQuit ∧
    decode 0b0011_11111111_00000000#20 = .ok (.keydownOther 0xFF) := by decide
theorem test_decode_poll : decode 0b0100_00000000_00000000#20 = .ok .poll ∧
    decode 0b0100_10101011_11001101#20 = .ok .poll := by decide
theorem test_decode_reserved : decode 0b0101_00000000_00000000#20 = .error (.reservedClass 5) ∧
    decode 0b1111_11111111_11111111#20 = .error (.reservedClass 15) := by decide
theorem test_encode_words : encode (.out4 0xCD) = 0x104CD ∧ encode .keydownQuit = 0x30700 ∧
    encode (.outOther 6 0xFF) = 0x106FF ∧ encode .poll = 0x40000 ∧ encode .in3 = 0x00300 := by decide
theorem test_table_word : decodeTableWord 24 0x1040F = some (.out4 0x0F) ∧
    decodeTableWord 24 0x50000 = none ∧ decodeTableWord 24 0x100000 = none := by decide

/-! ### The shift register: R112 table, V1.9, V1.17, V1.20, V1.23 -/

/-- `shiftHigh = 0xAB`, `shiftLow = 0xCD`, offset 3. -/
def shiftState : State :=
  { State.reset with shiftHigh := 0xAB, shiftLow := 0xCD, shiftOffset := 3 }

theorem test_in3 : after (exec .in3 shiftState) State.out = some [.reply 0x5E] := by decide
theorem test_in3_ends : after (exec .in3 { shiftState with shiftOffset := 0 }) State.out = some [.reply 0xAB] ∧
    after (exec .in3 { shiftState with shiftOffset := 7 }) State.out = some [.reply 0xE6] := by decide
theorem test_out2 : after (exec (.out2 0x0D) State.reset) State.shiftOffset = some 5 ∧
    after (exec (.out2 0x08) shiftState) State.shiftOffset = some 0 := by decide
theorem test_out4 : after (exec (.out4 0xCD) { shiftState with shiftLow := 0x11 })
    (fun t => (t.shiftHigh, t.shiftLow, t.shiftOffset)) = some (0xCD, 0xAB, 3) := by decide
theorem test_shift_program : after (execAll [.out4 0x12, .out4 0x34, .out4 0x56, .out2 0x04, .in3] State.reset)
    State.out = some [.reply 0x63] := by decide

/-! ### The input port latch: V2.1 to V2.31 -/

/-- Both input ports, as a pair. -/
def ports (s : State) : Byte × Byte := (s.inputPort1, s.inputPort2)

/-- The all-ones ports of V2.11 to V2.20. -/
def fullPorts : State := { State.reset with inputPort1 := 0xFF, inputPort2 := 0xFF }

theorem test_in1 : after (exec .in1 { State.reset with inputPort1 := 0x21 })
    (fun t => (t.out, t.inputPort1)) = some ([.reply 0x21], 0x21) := by decide
theorem test_in2 : after (exec .in2 { State.reset with inputPort2 := 0x14 })
    (fun t => (t.out, t.inputPort2)) = some ([.reply 0x14], 0x14) := by decide
theorem test_in_other : after (exec (.inOther 4) fullPorts) State.out = some [.reply 0x00] ∧
    after (exec (.inOther 0) fullPorts) State.out = some [.reply 0x00] := by decide
theorem test_keydown_coin : after (exec .keydownCoin State.reset) ports = some (0x01, 0x00) := by decide
theorem test_keydown_player2 : after (exec .keydownPlayer2Start State.reset) ports = some (0x02, 0x00) := by
  decide
theorem test_keydown_player1 : after (exec .keydownPlayer1Start State.reset) ports = some (0x04, 0x00) := by
  decide
theorem test_keydown_tilt : after (exec .keydownTilt State.reset) ports = some (0x00, 0x04) := by decide
theorem test_keydown_fire : after (exec .keydownFire { State.reset with inputPort1 := 0x01, inputPort2 := 0x04 })
    ports = some (0x11, 0x14) := by decide
theorem test_keydown_left : after (exec .keydownLeft State.reset) ports = some (0x20, 0x20) := by decide
theorem test_keydown_right : after (exec .keydownRight State.reset) ports = some (0x40, 0x40) := by decide
theorem test_keydown_quit : after (exec .keydownQuit State.reset) (fun t => (ports t, t.run)) =
    some ((0x00, 0x00), .stopped) := by decide
theorem test_keydown_other : after (exec (.keydownOther 0x2A) State.reset) id = some State.reset := by decide
theorem test_keyup_coin : after (exec .keyupCoin fullPorts) ports = some (0xFE, 0xFF) := by decide
theorem test_keyup_player2 : after (exec .keyupPlayer2Start fullPorts) ports = some (0xFD, 0xFF) := by decide
theorem test_keyup_player1 : after (exec .keyupPlayer1Start fullPorts) ports = some (0xFB, 0xFF) := by decide
theorem test_keyup_tilt : after (exec .keyupTilt fullPorts) ports = some (0xFF, 0xFB) := by decide
theorem test_keyup_fire : after (exec .keyupFire fullPorts) ports = some (0xEF, 0xEF) := by decide
theorem test_keyup_left : after (exec .keyupLeft fullPorts) ports = some (0xDF, 0xDF) := by decide
theorem test_keyup_right : after (exec .keyupRight fullPorts) ports = some (0xBF, 0xBF) := by decide
theorem test_keyup_quit : after (exec .keyupQuit fullPorts) id = some fullPorts := by decide
theorem test_keyup_other : after (exec (.keyupOther 0xFF) fullPorts) id = some fullPorts := by decide
/-- V2.22: only the undriven bits take the switch parameters. -/
theorem test_reset_switches : ports (State.resetWith
    { Params.nominal with port1SwitchDefault := 0xFF, port2SwitchDefault := 0xFF } .quiet) = (0x88, 0x8B) := by
  decide

/-! ### The sound edge detector: V3.1 to V3.27. The lists are compared as the spec's sets, in ascending order (log 20) -/

theorem test_out3 : after (exec (.out3 0x07) { State.reset with lastSoundPort3 := 0x02 })
    (fun t => (clipsOf t.out, t.lastSoundPort3)) = some ([0, 2], 0x07) := by decide
theorem test_out3_unmapped : after (exec (.out3 0xF0) { State.reset with lastSoundPort3 := 0x0F })
    (fun t => (t.out, t.lastSoundPort3)) = some ([], 0xF0) := by decide
theorem test_out5 : after (exec (.out5 0x15) { State.reset with lastSoundPort5 := 0x0A })
    (fun t => (clipsOf t.out, t.lastSoundPort5)) = some ([4, 6, 8], 0x15) := by decide
theorem test_out5_unmapped : after (exec (.out5 0xFF) { State.reset with lastSoundPort5 := 0x1F })
    (fun t => (t.out, t.lastSoundPort5)) = some ([], 0xFF) := by decide
theorem test_out_other : after (exec (.outOther 6 0xFF) State.reset) id = some State.reset := by decide

/-! ### The frame scheduler and compositor: V5.2, V5.3, V5.5, V5.9, S5 -/

/-- Phase, baseline and events after a POLL. -/
def tick (s : State) : Phase × Nat × List IrqVector × Nat :=
  (s.phase, s.tickBase, vectorsOf s.out, (framesOf s.out).length)

theorem test_poll_not_due : after (exec .poll { State.reset with now := 8333332, inte := true }) tick =
    some (.mid, 0, [], 0) := by decide
theorem test_poll_backwards : after (exec .poll { State.reset with tickBase := 5000, now := 4000, inte := true })
    tick = some (.mid, 5000, [], 0) := by decide
theorem test_poll_gated : after (exec .poll { State.reset with now := 8333333 }) tick =
    some (.mid, 8333333, [], 0) := by decide
theorem test_poll_fires : after (exec .poll { State.reset with now := 8333333, inte := true }) tick =
    some (.fin, 8333333, [.midFrame], 1) := by decide +kernel
theorem test_poll_second : after (exec .poll
    { State.reset with phase := .fin, tickBase := 8333333, now := 16666666, inte := true }) tick =
    some (.mid, 16666666, [.endFrame], 1) := by decide +kernel
/-- S5, R188: one set bit at column 10, byte-row 3, bit 5. -/
theorem test_composite_s5 : composite 0x2400 [(0x2543, 0x20)] =
    [(202536, 0xFF), (202537, 0xFF), (202538, 0xFF), (202539, 0xFF)] := by decide +kernel
/-- V4.13, V4.14: three corners; bytes outside the window are never read. -/
theorem test_composite_corners : ((composite 0x2400 [(0x23FF, 0xFF), (0x2400, 0x01), (0x3090, 0x01),
    (0x3FFF, 0x80), (0x4000, 0xFF)]).map Prod.fst).filter (fun p => p % 4 == 0) = [892, 114192, 228480] := by
  decide +kernel
theorem test_poll_untimed : after (execPollUntimed true { State.reset with inte := true }) tick =
    some (.fin, 0, [.midFrame], 1) := by decide +kernel

/-! ### Steps -/

theorem test_step_runs_word : after (step (State.reset.withFetchWord 24 0x30400)) ports = some (0x10, 0x10) := by
  decide
theorem test_step_idle : after (step State.reset) id = some State.reset := by decide
theorem test_step_invalid : after (step { State.reset with moves := [.cpuInvalid 0xED 0x1234], turn := .cpuStep })
    (fun t => (t.run, t.diagnostic)) = some (.stopped, some ⟨0xED, 0x1234⟩) := by decide
theorem test_step_store : after (step { State.reset with moves := [.cpuStore 5 7], turn := .cpuStep })
    (fun t => (t.mem, t.moves)) = some ([(5, 7)], []) := by decide
theorem test_step_stopped : (match step { State.reset with run := .stopped } with
    | .fault .stopped => true
    | .fault (.addressOutsideMemory _) => false
    | .next _ => false
    | .refused _ => false) = true := by decide
theorem test_memory_write_unlisted : Memory.write [(1, 7), (2, 8)] 1 0 = [(2, 8)] ∧
    Memory.write [(1, 7), (4, 8)] 2 9 = [(1, 7), (2, 9), (4, 8)] := by decide
theorem test_boot_roms : (match bootstrap .nominal .quiet ⟨[1], [2], [3], [4]⟩ none with
    | .started s => s.mem
    | .aborted _ => []
    | .refused => []) = [(0x0000, 1), (0x0800, 2), (0x1000, 3), (0x1800, 4)] := by decide

/-! ### Witnesses: a concrete state and operands that meet the hypotheses of each statement -/

/-- The nominal configuration is allowed. -/
theorem nominal_accepting {s : State} (hp : s.params = Params.nominal) (hr : s.run = .running) : Accepting s :=
  ⟨by rw [hp]; decide, hr⟩

/-- A state whose next POLL fires. -/
def firing : State := { State.reset with now := 8333333, inte := true }

theorem firing_fires : Accepting firing ∧ Fires firing := ⟨nominal_accepting rfl rfl, by decide, rfl⟩

/-- The state with one move to come. -/
def facing (m : Move) : State := { State.reset with moves := [m] }

/-- The state with one move to come, inside a CPU step. -/
def facingInStep (m : Move) : State := { State.reset with moves := [m], turn := .cpuStep }

theorem witness_DecodeOfEncode : WellFormed (.inOther 4) = true ∧ WellFormed (.outOther 1 0xFF) = true ∧
    WellFormed (.keyupOther 8) = true ∧ WellFormed (.keydownOther 0xFF) = true := by decide
theorem witness_EncodeOfDecode : decode 0x003FF = .ok .in3 ∧ decode 0x1FF80 = .ok (.outOther 0xFF 0x80) ∧
    decode 0x4ABCD = .ok .poll := by decide
theorem witness_DecoderFollowsOpcodeTable : decode 0x20700 = .ok .keyupQuit ∧
    decode 0x20800 = .ok (.keyupOther 8) ∧ decode 0x50000 = .error (.reservedClass 5) := by decide
theorem witness_ReservedClassesRefused : (0x4FFFF : Word).cls.toNat ≤ 4 ∧ 5 ≤ (0x50000 : Word).cls.toNat ∧
    Accepting (facing (.transaction 0x50000)) ∧
    (facing (.transaction 0x50000)).moves = .transaction 0x50000 :: [] :=
  ⟨by decide, by decide, nominal_accepting rfl rfl, rfl⟩
theorem witness_StepRunsDecodedTransaction : Accepting (facingInStep (.transaction 0x104CD)) ∧
    (facingInStep (.transaction 0x104CD)).moves = .transaction 0x104CD :: [] ∧
    decode 0x104CD = .ok (.out4 0xCD) ∧
    (facingInStep (.transaction 0x104CD)).turn = (issuerOf (.out4 0xCD)).turn ∧
    decodeTableWord 24 0x104CD = some (.out4 0xCD) := ⟨nominal_accepting rfl rfl, rfl, by decide, rfl, by decide⟩
theorem witness_StepRunsOtherMoves : Accepting State.reset ∧ State.reset.moves = [] ∧
    (facing (.timebase 9)).moves = .timebase 9 :: [] ∧
    (facingInStep (.cpuInte true)).moves = .cpuInte true :: [] ∧ (facingInStep (.cpuInte true)).turn = .cpuStep ∧
    (facingInStep .cpuStepDone).moves = .cpuStepDone :: [] ∧ (facingInStep .cpuStepDone).turn = .cpuStep ∧
    Memory.within [(65535, 1)] State.reset.params.memSize = true ∧
    (facing (.cpuDelivery [(65535, 1)])).moves = .cpuDelivery [(65535, 1)] :: [] :=
  ⟨nominal_accepting rfl rfl, rfl, rfl, rfl, rfl, rfl, rfl, by decide, rfl⟩
theorem witness_CpuStoreChangesOneByte : Accepting (facingInStep (.cpuStore 65535 1)) ∧
    (facingInStep (.cpuStore 65535 1)).turn = .cpuStep ∧ Memory.wf (facingInStep (.cpuStore 65535 1)).mem = true ∧
    (facingInStep (.cpuStore 65535 1)).moves = .cpuStore 65535 1 :: [] ∧ 65535 < State.reset.params.memSize ∧
    (facingInStep (.cpuStore 65536 1)).moves = .cpuStore 65536 1 :: [] ∧ State.reset.params.memSize ≤ 65536 :=
  ⟨nominal_accepting rfl rfl, rfl, by decide, rfl, by decide, rfl, by decide⟩
theorem witness_PortReadsReply : Accepting State.reset ∧ (4 : Byte) ≠ 1 ∧ (4 : Byte) ≠ 2 ∧ (4 : Byte) ≠ 3 ∧
    (0 : Byte) ≠ 1 ∧ (0 : Byte) ≠ 2 ∧ (0 : Byte) ≠ 3 := ⟨nominal_accepting rfl rfl, by decide⟩
theorem witness_In3RepliesShiftWindow : Accepting shiftState := nominal_accepting rfl rfl
theorem witness_Out2SetsShiftOffset : Accepting shiftState := nominal_accepting rfl rfl
theorem witness_Out4ShiftsByteIn : Accepting shiftState := nominal_accepting rfl rfl
theorem witness_In3WindowEquivalentForms : exec .in3 shiftState = .next (effect .in3 shiftState) :=
  exec_of_accepting (nominal_accepting rfl rfl) .in3
theorem witness_TwoSerialWritesThenRead : Accepting shiftState ∧ 7 < 8 := ⟨nominal_accepting rfl rfl, by decide⟩
theorem witness_ShiftLatchesIsolated : (Instr.poll ≠ .in3 ∧ (∀ v, Instr.poll ≠ .out2 v) ∧ ∀ v, Instr.poll ≠ .out4 v) ∧
    exec (.out2 9) shiftState = .next (effect (.out2 9) shiftState) ∧
    exec (.out4 9) shiftState = .next (effect (.out4 9) shiftState) ∧
    exec .in3 shiftState = .next (effect .in3 shiftState) :=
  ⟨⟨by decide, (by simp), (by simp)⟩, exec_of_accepting (nominal_accepting rfl rfl) (.out2 9),
    exec_of_accepting (nominal_accepting rfl rfl) (.out4 9), exec_of_accepting (nominal_accepting rfl rfl) .in3⟩
theorem witness_KeydownSetsControlBits : Accepting State.reset := nominal_accepting rfl rfl
theorem witness_KeyupClearsControlBits : Accepting fullPorts := nominal_accepting rfl rfl
theorem witness_UnrecognisedControlsIgnored : Accepting State.reset ∧ 8 ≤ (8 : Byte).toNat ∧ 8 ≤ (0xFF : Byte).toNat :=
  ⟨nominal_accepting rfl rfl, by decide, by decide⟩
theorem witness_QuitPressStopsRun : Accepting State.reset := nominal_accepting rfl rfl
theorem witness_KeyPressReleaseRoundTrip : Accepting State.reset ∧
    decode (mkWord 3 (controlCode .fire) 0) = .ok .keydownFire ∧
    decode (mkWord 2 (controlCode .fire) 0) = .ok .keyupFire ∧
    State.reset.inputPort1 &&& mask1 .fire = 0 ∧ State.reset.inputPort2 &&& mask2 .fire = 0 :=
  ⟨nominal_accepting rfl rfl, by decide, by decide, by decide, by decide⟩
theorem witness_InputPortsIsolated : exec .keydownFire State.reset = .next (effect .keydownFire State.reset) ∧
    issuerOf .poll ≠ .operator ∧ exec .in3 shiftState = .next (effect .in3 shiftState) ∧
    issuerOf .in3 ≠ .operator ∧ Instr.in3 ≠ .in1 ∧ Instr.in3 ≠ .in2 :=
  ⟨exec_of_accepting (nominal_accepting rfl rfl) .keydownFire, by decide, exec_of_accepting (nominal_accepting rfl rfl) .in3, by decide⟩
theorem witness_PressAndReleaseInOneIterationUnseen : Accepting firing ∧ firing.turn = .events ∧
    Memory.within [(0x2400, 1)] firing.params.memSize = true := ⟨nominal_accepting rfl rfl, rfl, by decide⟩
theorem witness_Out3TriggersRisingLines : Accepting State.reset := nominal_accepting rfl rfl
theorem witness_Out5TriggersRisingLines : Accepting State.reset := nominal_accepting rfl rfl
theorem witness_UnmappedOutIgnored : Accepting State.reset ∧
    ((1 : Byte) ≠ 2 ∧ (1 : Byte) ≠ 3 ∧ (1 : Byte) ≠ 4 ∧ (1 : Byte) ≠ 5) ∧
    (6 : Byte) ≠ 2 ∧ (6 : Byte) ≠ 3 ∧ (6 : Byte) ≠ 4 ∧ (6 : Byte) ≠ 5 := ⟨nominal_accepting rfl rfl, by decide, by decide⟩
theorem witness_EqualSoundWriteHasNoEffect : Accepting State.reset ∧ State.reset.lastSoundPort3 = 0x00 :=
  ⟨nominal_accepting rfl rfl, rfl⟩
theorem witness_RetriggerNeedsFallingEdge : Accepting { State.reset with lastSoundPort3 := 0x01 } :=
  nominal_accepting rfl rfl
theorem witness_SoundLatchesIsolated : (∀ v, Instr.poll ≠ .out3 v) ∧ (∀ v, Instr.poll ≠ .out5 v) ∧
    exec .poll firing = .next (effect .poll firing) :=
  ⟨by simp, by simp, exec_of_accepting (nominal_accepting rfl rfl) .poll⟩
theorem witness_PollNotDueOrGated : Accepting State.reset ∧
    (State.reset.now : Int) - (State.reset.tickBase : Int) < (State.reset.params.tickThreshold : Int) ∧
    Accepting { firing with inte := false } ∧
    (firing.params.tickThreshold : Int) ≤ (firing.now : Int) - (firing.tickBase : Int) :=
  ⟨nominal_accepting rfl rfl, by decide, nominal_accepting rfl rfl, by decide⟩
theorem witness_DuePollResetsBaseline : Accepting firing ∧
    (firing.params.tickThreshold : Int) ≤ (firing.now : Int) - (firing.tickBase : Int) :=
  ⟨nominal_accepting rfl rfl, by decide⟩
theorem witness_FiredPollAlternatesVectors : (Accepting firing ∧ Fires firing) ∧ firing.phase = .mid ∧
    Fires { firing with phase := .fin } ∧ ¬ Fires State.reset ∧
    exec .poll State.reset = .next (effect .poll State.reset) ∧ Instr.in1 ≠ .poll :=
  ⟨firing_fires, rfl, firing_fires.2, (fun h => absurd h.2 (by decide)), exec_of_accepting (nominal_accepting rfl rfl) .poll,
    by decide⟩
theorem witness_FiredPollRedraws : Accepting firing ∧ Fires firing := firing_fires
theorem witness_UntimedPollAdmitsTimedPoll : exec .poll firing = .next (effect .poll firing) :=
  exec_of_accepting (nominal_accepting rfl rfl) .poll
/-- One step from `firing` with a POLL to come and a later time. -/
theorem witness_InterruptRateBounded : firing.tickBase ≤ firing.now ∧
    monotoneFrom firing.now [.transaction 0x40000, .timebase 8333334] = true ∧
    Host.Core.run Sys2Proof.core 1 { firing with moves := [.transaction 0x40000, .timebase 8333334] } =
      .next (effect .poll { firing with moves := [.timebase 8333334], turn := .cpuStep }) := by
  refine ⟨by decide, by decide, ?_⟩
  have hs : step { firing with moves := [.transaction 0x40000, .timebase 8333334] } =
      .next (effect .poll { firing with moves := [.timebase 8333334], turn := .cpuStep }) :=
    step_word (nominal_accepting rfl rfl) rfl rfl (by decide)
  simp only [Host.Core.run]
  rw [show Sys2Proof.core.step = step from rfl, hs]
theorem witness_VectorsAlternateInEveryRun :
    Host.Core.run Sys2Proof.core 1 (State.resetWith .nominal { Surroundings.quiet with moves := [.timebase 5] }) =
      .next { State.reset with now := 5 } := by
  have hs : step (State.resetWith .nominal { Surroundings.quiet with moves := [.timebase 5] }) =
      .next { State.reset with now := 5 } := by
    rw [step_of_moves rfl]
    exact whenAccepted_of_accepting (s := State.reset) (nominal_accepting rfl rfl) _
  simp only [Host.Core.run]
  rw [show Sys2Proof.core.step = step from rfl, hs]
theorem witness_FrameShowsWindow : Fires firing ∧ exec .poll firing = .next (effect .poll firing) ∧
    223 < 224 ∧ 31 < 32 ∧ 7 < 8 := ⟨firing_fires.2, exec_of_accepting (nominal_accepting rfl rfl) .poll, by decide⟩
theorem witness_CompositeIsTheTripleLoop : FrameBuffer.wf [(0, 3), (229375, 9)] = true := by decide
theorem witness_FrameDependsOnWindowOnly : Fires firing ∧ Fires { firing with phase := .fin } ∧
    exec .poll firing = .next (effect .poll firing) ∧
    exec .poll { firing with phase := .fin } = .next (effect .poll { firing with phase := .fin }) ∧
    ∀ k < 7168, Memory.read (effect .poll firing).mem (firing.params.vramBase + k) =
      Memory.read (effect .poll { firing with phase := .fin }).mem (firing.params.vramBase + k) := by
  refine ⟨firing_fires.2, firing_fires.2, exec_of_accepting (nominal_accepting rfl rfl) .poll,
    exec_of_accepting (show Accepting { firing with phase := .fin } from nominal_accepting rfl rfl) .poll, ?_⟩
  intro k _
  rw [effect_poll_of_fires firing_fires.2,
    effect_poll_of_fires (show Fires { firing with phase := .fin } from firing_fires.2)]
  rfl
theorem witness_EveryTransactionCompletes : Accepting State.reset := nominal_accepting rfl rfl
theorem witness_EventsByClass : exec .in1 State.reset = .next (effect .in1 State.reset) ∧
    exec (.out5 0x1F) State.reset = .next (effect (.out5 0x1F) State.reset) ∧
    exec .keyupFire State.reset = .next (effect .keyupFire State.reset) ∧
    exec .keydownFire State.reset = .next (effect .keydownFire State.reset) ∧
    exec .poll firing = .next (effect .poll firing) ∧ (encode .in1).cls = 0 ∧ (encode (.out5 0x1F)).cls = 1 ∧
    (encode .keyupFire).cls = 2 ∧ (encode .keydownFire).cls = 3 ∧ (encode .poll).cls = 4 :=
  ⟨exec_of_accepting (nominal_accepting rfl rfl) .in1, exec_of_accepting (nominal_accepting rfl rfl) (.out5 0x1F),
    exec_of_accepting (nominal_accepting rfl rfl) .keyupFire, exec_of_accepting (nominal_accepting rfl rfl) .keydownFire,
    exec_of_accepting (nominal_accepting rfl rfl) .poll, by decide⟩
theorem witness_TransactionFrame : Memory.wf firing.mem = true ∧
    (∀ c ∈ ({ firing with deliveryStores := [(0x2400, 1)] } : State).deliveryStores, c.1 ≠ 0x2401) ∧
    exec .poll { firing with deliveryStores := [(0x2400, 1)] } =
      .next (effect .poll { firing with deliveryStores := [(0x2400, 1)] }) ∧ Instr.in1 ≠ .poll :=
  ⟨rfl, by simp, exec_of_accepting (nominal_accepting rfl rfl) .poll, by decide⟩
theorem witness_InvalidInstructionStopsRun : Accepting (facingInStep (.cpuInvalid 0xED 0x1234)) ∧
    (facingInStep (.cpuInvalid 0xED 0x1234)).turn = .cpuStep ∧
    (facingInStep (.cpuInvalid 0xED 0x1234)).moves = .cpuInvalid 0xED 0x1234 :: [] :=
  ⟨nominal_accepting rfl rfl, rfl, rfl⟩
theorem witness_StoppedAcceptsNothing : configurationOk (stopRun State.reset).params = true ∧
    (stopRun State.reset).run = .stopped := ⟨by decide, rfl⟩
theorem witness_StopOnlyByQuitOrInvalid :
    step (facing (.transaction 0x30700)) = .next (effect .keydownQuit State.reset) ∧
    (effect .keydownQuit State.reset).run = .stopped ∧
    step (facingInStep (.cpuInvalid 0xED 0)) = .next (failRun 0xED 0 { State.reset with turn := .cpuStep }) :=
  ⟨step_word (i := .keydownQuit) (s := facing (.transaction 0x30700)) (nominal_accepting rfl rfl) rfl rfl
    (by decide), rfl, by
    rw [step_of_moves (s := facingInStep (.cpuInvalid 0xED 0)) rfl]
    exact whenAccepted_of_accepting (s := { State.reset with turn := .cpuStep }) (nominal_accepting rfl rfl) _⟩
theorem witness_BadConfigurationRefused :
    ({ Params.nominal with memSize := 0x2400 + 7167 } : Params).memSize < Params.nominal.vramBase + 7168 ∧
    ({ Params.nominal with tickThreshold := 0 } : Params).tickThreshold = 0 := by decide
theorem witness_ResetTable : State.reset = State.resetWith .nominal .quiet := rfl
theorem witness_FirstBehaviourAfterReset : configurationOk Params.nominal = true ∧
    State.reset = State.resetWith .nominal .quiet ∧ 8333332 < Surroundings.quiet.now + Params.nominal.tickThreshold ∧
    Surroundings.quiet.now + Params.nominal.tickThreshold ≤ 8333333 := ⟨by decide, rfl, by decide, by decide⟩
theorem witness_BootstrapLoadsRoms : configurationOk Params.nominal = true ∧
    romsFit Params.nominal.memSize ⟨[1], [2], [3], [4]⟩ = true ∧ Surroundings.quiet.clipTable.length = 9 ∧
    Memory.wf Surroundings.quiet.mem = true := by decide
theorem witness_ResetMeetsInvariant : Memory.wf Surroundings.quiet.mem = true ∧
    Memory.within Surroundings.quiet.mem Params.nominal.memSize = true ∧
    Memory.within Surroundings.quiet.deliveryStores Params.nominal.memSize = true ∧
    FrameBuffer.wf Surroundings.quiet.frameBuffer = true ∧ Surroundings.quiet.clipTable.length = 9 := by decide
theorem reset_inv : Inv State.reset := by constructor <;> decide
theorem witness_StepKeepsInvariant : Inv State.reset ∧ step State.reset = .next State.reset :=
  ⟨reset_inv, step_idle (nominal_accepting rfl rfl) rfl⟩

/-! ### Witnesses about the main loop -/

theorem witness_OutOfTurnMovesRefused : Accepting (facing (.transaction 0x00100)) ∧
    decode 0x00100 = .ok .in1 ∧ (facing (.transaction 0x00100)).turn ≠ (issuerOf .in1).turn ∧
    (facingInStep (.transaction 0x40000)).turn ≠ (issuerOf .poll).turn ∧
    (facing .cpuStepDone).turn = .events ∧ (facing .cpuStepDone).moves = .cpuStepDone :: [] :=
  ⟨nominal_accepting rfl rfl, by decide, by decide, by decide, rfl, rfl⟩

/-- An iteration in the manner of P5: fire pressed, a POLL that is due, then an OUT 4, a store and a flag. -/
def sampleIteration : Iteration where
  keys := [⟨true, 0x04⟩]
  now := 8333333
  deliveryStores := [(0x23FE, 0x12)]
  cpu := [.output 4 0x3C, .store 65535 0x80, .setInte true]

theorem witness_OnePollPerCpuStep :
    Host.Core.run Sys2Proof.core 1 (facing (.transaction 0x40000)) =
      .next (effect .poll { State.reset with turn := .cpuStep }) := by
  have hs : step (facing (.transaction 0x40000)) = .next (effect .poll { State.reset with turn := .cpuStep }) :=
    step_word (s := facing (.transaction 0x40000)) (nominal_accepting rfl rfl) rfl rfl (by decide)
  simp only [Host.Core.run]
  rw [show Sys2Proof.core.step = step from rfl, hs]
theorem witness_IterationRunsInOrder : Accepting State.reset ∧ State.reset.turn = .events ∧
    sampleIteration.keys.all (fun k => !k.isQuit) = true ∧
    Memory.within sampleIteration.deliveryStores State.reset.params.memSize = true ∧
    sampleIteration.cpu.all (CpuAction.returns State.reset.params.memSize) = true :=
  ⟨nominal_accepting rfl rfl, rfl, by decide, by decide, by decide⟩

/-- An iteration in which quit arrives between two other key events. -/
def quitIteration : Iteration :=
  { sampleIteration with keys := [⟨true, 0x04⟩] ++ ⟨true, 0x07⟩ :: [⟨false, 0x04⟩] }

/-- An iteration whose CPU step fails after its first action. -/
def failingIteration : Iteration :=
  { sampleIteration with cpu := [.output 4 0x3C] ++ .invalidInstruction 0xED 0x1234 :: [.input 1] }

/-- D16: at quit the POLL, the CPU step and the iterations after it are not performed. -/
theorem test_loop_quit : after (mainLoop [quitIteration, sampleIteration] State.reset)
    (fun t => (t.run, ports t, t.shiftHigh, t.now, t.out)) = some (.stopped, (0x10, 0x10), 0x00, 0, []) := by decide
/-- R221: at an invalid instruction the rest of the step and the iterations after it are not performed. -/
theorem test_loop_invalid : after (mainLoop [failingIteration, sampleIteration] State.reset)
    (fun t => (t.run, t.diagnostic, t.shiftHigh, t.out)) = some (.stopped, some ⟨0xED, 0x1234⟩, 0x3C, []) := by decide
/-- R208: an iteration in its order, ready for the next one. -/
theorem test_loop_iteration : after (mainLoop [sampleIteration, { sampleIteration with keys := [], cpu := [.input 1] }]
    State.reset) (fun t => (t.run, t.turn, t.out)) = some (.running, .events, [.reply 0x10]) := by decide
theorem test_step_out_of_turn : (match step (facing (.transaction 0x00100)) with
    | .refused .outOfTurn => true
    | .refused (.notModelled _) => false
    | .refused (.reservedClass _) => false
    | .refused .configuration => false
    | .next _ => false
    | .fault _ => false) = true := by decide
theorem witness_LoopEndsWhereRunStops : Accepting State.reset ∧ State.reset.turn = .events ∧
    quitIteration.keys = [⟨true, 0x04⟩] ++ ⟨true, 0x07⟩ :: [⟨false, 0x04⟩] ∧
    after (runMoves ([⟨true, 0x04⟩].map KeyEvent.move) State.reset) State.run = some .running ∧
    failingIteration.cpu = [.output 4 0x3C] ++ .invalidInstruction 0xED 0x1234 :: [.input 1] ∧
    after (runMoves (failingIteration.keyMoves ++ failingIteration.pollMoves ++
      [.output 4 0x3C].map CpuAction.move) State.reset) State.run = some .running ∧
    (stopRun State.reset).run = .stopped :=
  ⟨nominal_accepting rfl rfl, rfl, rfl, by decide, rfl, by decide, rfl⟩
theorem witness_MainLoopIsSteps : mainLoop [] State.reset = .next State.reset ∧
    after (mainLoop [sampleIteration] State.reset) State.run = some .running ∧
    after (mainLoop [quitIteration] State.reset) State.run = some .stopped := ⟨rfl, by decide, by decide⟩

end Sys2Proof.Tests
end

section
/-! The shift register: `40_shift_register.md` R110 to R112. The decoder on class 0 and class 1 words, the
shift window as a number, then the three obligations. -/

namespace Sys2Proof.Machine

/-- R92: a word of class 0 is an IN, whatever its data field holds. -/
theorem decode_mkWord_in (sel data : Byte) : decode (mkWord 0 sel data) = .ok (decodeIn sel) := by
  simp [decode]

/-- R92: a word of class 1 is an OUT of its data byte. -/
theorem decode_mkWord_out (sel data : Byte) : decode (mkWord 1 sel data) = .ok (decodeOut sel data) := by
  simp [decode]

/-- R112: the two latches as one number, `shiftHigh` above `shiftLow`. -/
theorem shiftValue_toNat (hi lo : Byte) : (shiftValue hi lo).toNat = hi.toNat * 256 + lo.toNat := by
  calc (shiftValue hi lo).toNat
      = hi.toNat <<< 8 ||| lo.toNat := by rw [shiftValue_eq_append, BitVec.toNat_append]
    _ = hi.toNat <<< 8 + lo.toNat := (Nat.shiftLeft_add_eq_or_of_lt lo.isLt hi.toNat).symm
    _ = hi.toNat * 256 + lo.toNat := by rw [Nat.shiftLeft_eq]

/-- R112: shifting right divides by a power of two, and the cut to a byte takes the rest modulo 256. -/
theorem shiftWindow_toNat (hi lo : Byte) (offset : BitVec 3) :
    (shiftWindow hi lo offset).toNat = (hi.toNat * 256 + lo.toNat) / 2 ^ (8 - offset.toNat) % 256 := by
  rw [shiftWindow, BitVec.toNat_setWidth, BitVec.toNat_ushiftRight, Nat.shiftRight_eq_div_pow, shiftValue_toNat]

/-- R88: the mask `0x07` keeps exactly the three stored bits. -/
theorem offsetField_toNat_eq_and (v : Byte) : (offsetField v).toNat = (v &&& 0x07).toNat := by
  have hmask : v.toNat &&& 7 = v.toNat % 8 := Nat.and_two_pow_sub_one_eq_mod v.toNat 3
  rw [offsetField_toNat, BitVec.toNat_and, ← hmask]
  rfl

/-- Settles O10: the reply is the shift window of the latches, read as a number. -/
theorem in3RepliesShiftWindow : Obligations.In3RepliesShiftWindow := by
  intro s d h
  exact ⟨decode_mkWord_in 0x03 d, shiftWindow s.shiftHigh s.shiftLow s.shiftOffset,
    exec_of_accepting h .in3, shiftWindow_toNat _ _ _⟩

/-- Settles O11: the stored offset is the data byte's offset field. -/
theorem out2SetsShiftOffset : Obligations.Out2SetsShiftOffset := by
  intro s v h
  exact ⟨decode_mkWord_out 0x02 v, offsetField v, exec_of_accepting h (.out2 v), offsetField_toNat_eq_and v⟩

/-- Settles O12: the effect of OUT 4 is the parallel assignment. -/
theorem out4ShiftsByteIn : Obligations.Out4ShiftsByteIn := by
  intro s v h
  exact ⟨decode_mkWord_out 0x04 v, exec_of_accepting h (.out4 v)⟩

end Sys2Proof.Machine
end

section
/-! The input port latch: `41_input_port_latch.md` R130 to R152. The decoder on an unmapped IN port and on
class 2 and class 3 words, the general laws of KEYDOWN (R133) and KEYUP (R143), then the four obligations. -/

namespace Sys2Proof.Machine

/-- R92: a word of class 2 is a KEYUP, whatever its data field holds. -/
theorem decode_mkWord_keyup (sel data : Byte) : decode (mkWord 2 sel data) = .ok (decodeKeyup sel) := by
  simp [decode]

/-- R92: a word of class 3 is a KEYDOWN, whatever its data field holds. -/
theorem decode_mkWord_keydown (sel data : Byte) : decode (mkWord 3 sel data) = .ok (decodeKeydown sel) := by
  simp [decode]

/-- R132: every port but 1, 2 and 3 is an unmapped IN. -/
theorem decodeIn_of_unmapped {port : Byte} (h1 : port ≠ 1) (h2 : port ≠ 2) (h3 : port ≠ 3) :
    decodeIn port = .inOther port := by
  unfold decodeIn
  split
  case h_1 h => exact absurd (BitVec.eq_of_toNat_eq h) h1
  case h_2 h => exact absurd (BitVec.eq_of_toNat_eq h) h2
  case h_3 h => exact absurd (BitVec.eq_of_toNat_eq h) h3
  case h_4 => rfl

/-- R152: the codes from 8 on name no control. -/
theorem decodeKeyup_of_unrecognised {code : Byte} (h : 8 ≤ code.toNat) : decodeKeyup code = .keyupOther code := by
  unfold decodeKeyup
  split
  case h_9 => rfl
  all_goals omega

/-- R142: the codes from 8 on name no control. -/
theorem decodeKeydown_of_unrecognised {code : Byte} (h : 8 ≤ code.toNat) :
    decodeKeydown code = .keydownOther code := by
  unfold decodeKeydown
  split
  case h_9 => rfl
  all_goals omega

/-- The KEYDOWN transaction of a control (R134 to R140); `decode_keydownOf` and `exec_keydownOf` tie it to
the decoder and to `exec`. -/
def keydownOf : Control → Instr
  | .coin => .keydownCoin
  | .player2Start => .keydownPlayer2Start
  | .player1Start => .keydownPlayer1Start
  | .tilt => .keydownTilt
  | .fire => .keydownFire
  | .left => .keydownLeft
  | .right => .keydownRight

/-- The KEYUP transaction of a control (R144 to R150); `decode_keyupOf` and `exec_keyupOf` tie it to the
decoder and to `exec`. -/
def keyupOf : Control → Instr
  | .coin => .keyupCoin
  | .player2Start => .keyupPlayer2Start
  | .player1Start => .keyupPlayer1Start
  | .tilt => .keyupTilt
  | .fire => .keyupFire
  | .left => .keyupLeft
  | .right => .keyupRight

theorem decode_keydownOf (ctl : Control) (data : Byte) :
    decode (mkWord 3 (controlCode ctl) data) = .ok (keydownOf ctl) := by
  rw [decode_mkWord_keydown]
  cases ctl <;> rfl

theorem decode_keyupOf (ctl : Control) (data : Byte) :
    decode (mkWord 2 (controlCode ctl) data) = .ok (keyupOf ctl) := by
  rw [decode_mkWord_keyup]
  cases ctl <;> rfl

section
variable {s : State} {ctl : Control}

/-- The general law of KEYDOWN (R133). -/
theorem exec_keydownOf (h : Accepting s) (ctl : Control) :
    exec (keydownOf ctl) s = .next (pressControl ctl s) := by
  rw [exec_of_accepting h]
  cases ctl <;> rfl

/-- The general law of KEYUP (R143). -/
theorem exec_keyupOf (h : Accepting s) (ctl : Control) :
    exec (keyupOf ctl) s = .next (releaseControl ctl s) := by
  rw [exec_of_accepting h]
  cases ctl <;> rfl

/-- R133 for a control that has no bit in port 2. -/
theorem exec_keydownOf_port1 (h : Accepting s) (hm : mask2 ctl = 0) :
    exec (keydownOf ctl) s = .next { s with inputPort1 := s.inputPort1 ||| mask1 ctl } := by
  simp [exec_keydownOf h, pressControl, hm]

/-- R133 for a control that has no bit in port 1. -/
theorem exec_keydownOf_port2 (h : Accepting s) (hm : mask1 ctl = 0) :
    exec (keydownOf ctl) s = .next { s with inputPort2 := s.inputPort2 ||| mask2 ctl } := by
  simp [exec_keydownOf h, pressControl, hm]

/-- Clearing the bits of an empty mask keeps the port. -/
theorem and_not_of_empty_mask {mask : Byte} (hm : mask = 0) (port : Byte) : port &&& ~~~mask = port := by
  subst hm
  exact BitVec.and_allOnes

/-- R143 for a control that has no bit in port 2. -/
theorem exec_keyupOf_port1 (h : Accepting s) (hm : mask2 ctl = 0) :
    exec (keyupOf ctl) s = .next { s with inputPort1 := s.inputPort1 &&& ~~~mask1 ctl } := by
  rw [exec_keyupOf h, releaseControl, and_not_of_empty_mask hm]

/-- R143 for a control that has no bit in port 1. -/
theorem exec_keyupOf_port2 (h : Accepting s) (hm : mask1 ctl = 0) :
    exec (keyupOf ctl) s = .next { s with inputPort2 := s.inputPort2 &&& ~~~mask2 ctl } := by
  rw [exec_keyupOf h, releaseControl, and_not_of_empty_mask hm]

end

/-- Settles O9: the effect of each port read is its one reply. -/
theorem portReadsReply : Obligations.PortReadsReply := by
  intro s d h
  refine ⟨⟨decode_mkWord_in 0x01 d, exec_of_accepting h .in1⟩,
    ⟨decode_mkWord_in 0x02 d, exec_of_accepting h .in2⟩, ?_⟩
  intro port h1 h2 h3
  have hdecode : decode (mkWord 0 port d) = .ok (.inOther port) := by
    rw [decode_mkWord_in, decodeIn_of_unmapped h1 h2 h3]
  exact ⟨hdecode, exec_of_accepting h (.inOther port)⟩

/-- Settles O16: R133 control by control; coin and the starts have no bit in port 2, tilt none in port 1. -/
theorem keydownSetsControlBits : Obligations.KeydownSetsControlBits := by
  intro s d h
  exact ⟨⟨decode_keydownOf .coin d, exec_keydownOf_port1 h (ctl := .coin) rfl⟩,
    ⟨decode_keydownOf .player2Start d, exec_keydownOf_port1 h (ctl := .player2Start) rfl⟩,
    ⟨decode_keydownOf .player1Start d, exec_keydownOf_port1 h (ctl := .player1Start) rfl⟩,
    ⟨decode_keydownOf .tilt d, exec_keydownOf_port2 h (ctl := .tilt) rfl⟩,
    ⟨decode_keydownOf .fire d, exec_keydownOf h .fire⟩,
    ⟨decode_keydownOf .left d, exec_keydownOf h .left⟩,
    ⟨decode_keydownOf .right d, exec_keydownOf h .right⟩⟩

/-- Settles O17: R143 control by control; the complement of each mask is the literal the rule gives. -/
theorem keyupClearsControlBits : Obligations.KeyupClearsControlBits := by
  intro s d h
  exact ⟨⟨decode_keyupOf .coin d, exec_keyupOf_port1 h (ctl := .coin) rfl⟩,
    ⟨decode_keyupOf .player2Start d, exec_keyupOf_port1 h (ctl := .player2Start) rfl⟩,
    ⟨decode_keyupOf .player1Start d, exec_keyupOf_port1 h (ctl := .player1Start) rfl⟩,
    ⟨decode_keyupOf .tilt d, exec_keyupOf_port2 h (ctl := .tilt) rfl⟩,
    ⟨decode_keyupOf .fire d, exec_keyupOf h .fire⟩,
    ⟨decode_keyupOf .left d, exec_keyupOf h .left⟩,
    ⟨decode_keyupOf .right d, exec_keyupOf h .right⟩⟩

/-- Settles O18: a code from 8 on decodes to the unrecognised transaction, whose effect is the state itself. -/
theorem unrecognisedControlsIgnored : Obligations.UnrecognisedControlsIgnored := by
  intro s code d h hcode
  have hdown : decode (mkWord 3 code d) = .ok (.keydownOther code) := by
    rw [decode_mkWord_keydown, decodeKeydown_of_unrecognised hcode]
  have hup : decode (mkWord 2 code d) = .ok (.keyupOther code) := by
    rw [decode_mkWord_keyup, decodeKeyup_of_unrecognised hcode]
  exact ⟨hdown, exec_of_accepting h (.keydownOther code), hup, exec_of_accepting h (.keyupOther code)⟩

end Sys2Proof.Machine
end

section
/-! The sound edge detector: `42_sound_edge_detector.md` R160 to R168. The events of one write as a set
without repeats, the decoder on an unmapped OUT port, what every other transaction does with the sound
latches, then the five obligations. -/

namespace Sys2Proof.Machine

/-! ### The clip events of one write (R160) -/

/-- R160: a line rises where the written bit is 1 and the latched one is 0. -/
theorem getLsbD_risingLines (value last : Byte) (i : Nat) :
    (risingLines value last).getLsbD i = true ↔ value.getLsbD i = true ∧ last.getLsbD i = false := by
  rw [risingLines, BitVec.getLsbD_and, Bool.and_eq_true]
  refine and_congr_right fun hv => ?_
  have hi : i < 8 := BitVec.lt_of_getLsbD hv
  simp [hi]

/-- R160 step 2: the clips emitted are those of the mapped lines that rise. -/
theorem clip_mem_clipEvents {soundMap : List (Nat × Fin 9)} {value last : Byte} {k : Fin 9} :
    .clip k ∈ clipEvents soundMap value last ↔
      ∃ i, (i, k) ∈ soundMap ∧ value.getLsbD i = true ∧ last.getLsbD i = false := by
  simp only [← getLsbD_risingLines]
  constructor
  · intro hk
    obtain ⟨⟨i, j⟩, hline, hclip, hrises⟩ := clipEvents_clip hk
    cases hclip
    exact ⟨i, hline, hrises⟩
  · rintro ⟨i, hline, hrises⟩
    exact List.mem_filterMap.mpr ⟨(i, k), hline, if_pos hrises⟩

/-- R160: a write emits nothing but clips. -/
theorem eq_clip_of_mem_clipEvents {soundMap : List (Nat × Fin 9)} {value last : Byte} {e : Event}
    (h : e ∈ clipEvents soundMap value last) : ∃ k, e = .clip k := by
  obtain ⟨line, -, hclip, -⟩ := clipEvents_clip h
  exact ⟨line.2, hclip⟩

/-- R164: where no two lines share a clip, one write emits no clip twice. -/
theorem clipEvents_nodup {soundMap : List (Nat × Fin 9)} (hmap : (soundMap.map Prod.snd).Nodup)
    (value last : Byte) : (clipEvents soundMap value last).Nodup := by
  refine List.pairwise_filterMap.mpr ((List.pairwise_map.mp hmap).imp ?_)
  intro line line' hne e he e' he'
  obtain ⟨-, ⟨⟩⟩ := Option.ite_none_right_eq_some.mp he
  obtain ⟨-, ⟨⟩⟩ := Option.ite_none_right_eq_some.mp he'
  exact fun heq => hne (Event.clip.inj heq)

/-- R165: no line rises when the byte written is the byte latched. -/
theorem clipEvents_self (soundMap : List (Nat × Fin 9)) (value : Byte) : clipEvents soundMap value value = [] := by
  have hrising : risingLines value value = 0 := BitVec.and_not_self value
  refine List.filterMap_eq_nil_iff.mpr fun line _ => ?_
  simp [hrising]

/-- `MAP(3)`: bit `i` of port 3 is clip `i`, for the bits 0 to 3. -/
theorem mem_soundMap3 {i : Nat} {k : Fin 9} : (i, k) ∈ soundMap3 ↔ k.val < 4 ∧ i = k.val := by
  simp only [soundMap3, List.mem_cons, List.not_mem_nil, or_false, Prod.mk.injEq, Fin.ext_iff, Fin.coe_ofNat_eq_mod]
  omega

/-- `MAP(5)`: bit `i` of port 5 is clip `i + 4`, for the bits 0 to 4. -/
theorem mem_soundMap5 {i : Nat} {k : Fin 9} : (i, k) ∈ soundMap5 ↔ 4 ≤ k.val ∧ i = k.val - 4 := by
  simp only [soundMap5, List.mem_cons, List.not_mem_nil, or_false, Prod.mk.injEq, Fin.ext_iff, Fin.coe_ofNat_eq_mod]
  omega

/-- R161: how often OUT 3 emits `Clip(k)`. -/
theorem count_clipEvents_soundMap3 (value last : Byte) (k : Fin 9) :
    (clipEvents soundMap3 value last).count (.clip k) =
      if k.val < 4 ∧ value.getLsbD k.val = true ∧ last.getLsbD k.val = false then 1 else 0 := by
  rw [(clipEvents_nodup (by decide) value last).count]
  simp only [clip_mem_clipEvents, mem_soundMap3, and_assoc, exists_and_left, exists_eq_left]

/-- R162: how often OUT 5 emits `Clip(k)`. -/
theorem count_clipEvents_soundMap5 (value last : Byte) (k : Fin 9) :
    (clipEvents soundMap5 value last).count (.clip k) =
      if 4 ≤ k.val ∧ value.getLsbD (k.val - 4) = true ∧ last.getLsbD (k.val - 4) = false then 1 else 0 := by
  rw [(clipEvents_nodup (by decide) value last).count]
  simp only [clip_mem_clipEvents, mem_soundMap5, and_assoc, exists_and_left, exists_eq_left]

/-- A clip occurs among the clips as often as its event among the events. -/
theorem count_clipsOf (events : List Event) (k : Fin 9) :
    (clipsOf events).count k = events.count (.clip k) := by
  rw [clipsOf, List.count_filterMap, List.count_eq_countP]
  refine List.countP_congr fun e _ => ?_
  cases e <;> simp

/-! ### The transactions on accepting states (R163, R165) -/

/-- R163: every port but 2, 3, 4 and 5 is an unmapped OUT. -/
theorem decodeOut_of_unmapped {port : Byte} (h2 : port ≠ 2) (h3 : port ≠ 3) (h4 : port ≠ 4) (h5 : port ≠ 5)
    (data : Byte) : decodeOut port data = .outOther port data := by
  unfold decodeOut
  split
  case h_1 h => exact absurd (BitVec.eq_of_toNat_eq h) h2
  case h_2 h => exact absurd (BitVec.eq_of_toNat_eq h) h3
  case h_3 h => exact absurd (BitVec.eq_of_toNat_eq h) h4
  case h_4 h => exact absurd (BitVec.eq_of_toNat_eq h) h5
  case h_5 => rfl

/-- R165 on port 3. -/
theorem exec_out3_self {s : State} (h : Accepting s) : exec (.out3 s.lastSoundPort3) s = .next s := by
  simp [exec_of_accepting h, effect, State.emit, clipEvents_self]

/-- R165 on port 5. -/
theorem exec_out5_self {s : State} (h : Accepting s) : exec (.out5 s.lastSoundPort5) s = .next s := by
  simp [exec_of_accepting h, effect, State.emit, clipEvents_self]

/-- R165: OUT 3 of one byte twice is OUT 3 of it once. -/
theorem execAll_out3_twice {s : State} (h : Accepting s) (v : Byte) :
    execAll [.out3 v, .out3 v] s = .next (effect (.out3 v) s) := by
  have hagain : exec (.out3 v) (effect (.out3 v) s) = .next (effect (.out3 v) s) :=
    exec_out3_self (accepting_effect h nofun)
  simp only [execAll, andThen, exec_of_accepting h, hagain]

/-! ### Isolation of the sound latches (R168) -/

/-- A function of the next state goes through the acceptance test. -/
theorem mapNext_accept (f : State → State) (s t : State) : mapNext f (accept s t) = accept s (f t) := by
  unfold accept whenAccepted
  split
  · cases s.run <;> rfl
  · rfl

/-- R168: the interrupt and the redraw of a due poll neither read nor write the sound latches. -/
theorem dueTick_withSoundLatches (a b : Byte) (s : State) :
    dueTick (withSoundLatches a b s) = withSoundLatches a b (dueTick s) := by
  rw [dueTick, dueTick, apply_ite (withSoundLatches a b)]
  rfl

section
variable {i : Instr}

/-- R168: the effect of a transaction other than OUT 3 and OUT 5 neither reads nor writes the sound latches. -/
theorem effect_withSoundLatches (h3 : ∀ v, i ≠ .out3 v) (h5 : ∀ v, i ≠ .out5 v) (a b : Byte) (s : State) :
    effect i (withSoundLatches a b s) = withSoundLatches a b (effect i s) := by
  cases i
  case out3 v => exact absurd rfl (h3 v)
  case out5 v => exact absurd rfl (h5 v)
  case poll =>
    rw [effect, effect, dueTick_withSoundLatches, apply_ite (withSoundLatches a b)]
    rfl
  all_goals rfl

/-- R168: a POLL emits no clip. -/
theorem clipsOf_effect_poll (s : State) : clipsOf (effect .poll s).out = clipsOf s.out := by
  by_cases hf : Fires s
  · rw [effect_poll_of_fires hf]
    simp [fireTick, clipsOf]
  · obtain ⟨-, he⟩ | ⟨-, he⟩ := effect_poll_of_not_fires hf
    · rw [he]
    · rw [he, resetBaseline_out]

/-- R168: a transaction other than OUT 3 and OUT 5 emits no clip. -/
theorem clipsOf_effect (h3 : ∀ v, i ≠ .out3 v) (h5 : ∀ v, i ≠ .out5 v) (s : State) :
    clipsOf (effect i s).out = clipsOf s.out := by
  cases i
  case out3 v => exact absurd rfl (h3 v)
  case out5 v => exact absurd rfl (h5 v)
  case poll => exact clipsOf_effect_poll s
  case in1 | in2 | in3 | inOther => simp [effect, clipsOf]
  all_goals rfl

end

/-! ### The obligations -/

/-- Settles O23: the clip events of port 3 are counted line by line. -/
theorem out3TriggersRisingLines : Obligations.Out3TriggersRisingLines := by
  intro s v h
  exact ⟨decode_mkWord_out 0x03 v, clipEvents soundMap3 v s.lastSoundPort3, exec_of_accepting h (.out3 v),
    fun _ => eq_clip_of_mem_clipEvents, count_clipEvents_soundMap3 v s.lastSoundPort3⟩

/-- Settles O24: the clip events of port 5 are counted line by line. -/
theorem out5TriggersRisingLines : Obligations.Out5TriggersRisingLines := by
  intro s v h
  exact ⟨decode_mkWord_out 0x05 v, clipEvents soundMap5 v s.lastSoundPort5, exec_of_accepting h (.out5 v),
    fun _ => eq_clip_of_mem_clipEvents, count_clipEvents_soundMap5 v s.lastSoundPort5⟩

/-- Settles O25: the port decodes to the unmapped transaction, whose effect is the state itself. -/
theorem unmappedOutIgnored : Obligations.UnmappedOutIgnored := by
  intro s port v h h2 h3 h4 h5
  have hdecode : decode (mkWord 1 port v) = .ok (.outOther port v) := by
    rw [decode_mkWord_out, decodeOut_of_unmapped h2 h3 h4 h5]
  exact ⟨hdecode, exec_of_accepting h (.outOther port v)⟩

/-- Settles O26: an equal write is the identity, so of two equal writes only the first counts. -/
theorem equalSoundWriteHasNoEffect : Obligations.EqualSoundWriteHasNoEffect := by
  intro s h
  refine ⟨exec_out3_self h, exec_out5_self h, fun hlast => ⟨_, execAll_out3_twice h 0x01, ?_⟩⟩
  have hone : (clipEvents soundMap3 0x01 s.lastSoundPort3).count (.clip 0) = 1 := by
    rw [count_clipEvents_soundMap3, hlast]
    decide
  rw [count_clipsOf, count_clipsOf, ← hone]
  exact List.count_append

/-- Settles O28: the acceptance test reads no sound latch, and the effects keep to theirs. -/
theorem soundLatchesIsolated : Obligations.SoundLatchesIsolated := by
  intro s a b
  refine ⟨fun i h3 h5 => ⟨?_, ?_⟩, fun v => ?_, fun v => ?_⟩
  · rw [exec_eq, exec_eq, mapNext_accept, effect_withSoundLatches h3 h5]
    rfl
  · intro t ht
    obtain ⟨-, rfl⟩ := exec_next ht
    exact clipsOf_effect h3 h5 s
  · rw [exec_eq, exec_eq, mapNext_accept]
    rfl
  · rw [exec_eq, exec_eq, mapNext_accept]
    rfl

end Sys2Proof.Machine
end

section
/-! The frame scheduler: `44_frame_scheduler.md` R201 to R205. The decoder on class 4 words, what a POLL does
that is not due, due, gated or fired, what every other transaction leaves alone, then the three obligations. -/

namespace Sys2Proof.Machine

/-- R92: a word of class 4 is a POLL, whatever its other fields hold. -/
theorem decode_mkWord_poll (sel data : Byte) : decode (mkWord 4 sel data) = .ok .poll := by
  simp [decode]

/-- R202, R204: neither the gate nor the tick moves the timebase. -/
@[simp] theorem dueTick_now (s : State) : (dueTick s).now = s.now := by
  unfold dueTick
  split <;> rfl

section
variable {s : State} {i : Instr}

/-- R201: a poll before the threshold, or on a timebase that ran backwards, does nothing. -/
theorem effect_poll_of_not_due (h : (s.now : Int) - (s.tickBase : Int) < (s.params.tickThreshold : Int)) :
    effect .poll s = s := by
  have hdue : isDue s = false := decide_eq_false h.not_ge
  simp [effect, hdue]

/-- R202, R205: a due poll passes the gate, then sets the baseline. -/
theorem effect_poll_of_due (h : (s.params.tickThreshold : Int) ≤ (s.now : Int) - (s.tickBase : Int)) :
    effect .poll s = resetBaseline (dueTick s) := if_pos ((isDue_iff s).mpr h)

/-- R202: behind the gate only the baseline is left. -/
theorem effect_poll_of_gated (h : (s.params.tickThreshold : Int) ≤ (s.now : Int) - (s.tickBase : Int))
    (hinte : s.inte = false) : effect .poll s = resetBaseline s := by
  simp [effect_poll_of_due h, dueTick, hinte]

/-- R203: a fired poll toggles the phase. -/
theorem effect_poll_phase_of_fires (h : Fires s) : (effect .poll s).phase = s.phase.toggle := by
  simp [effect_poll_of_fires h, fireTick]

/-- R203: a fired poll requests the interrupt of the phase it finds, and no other. -/
theorem vectorsOf_effect_poll_of_fires (h : Fires s) :
    vectorsOf (effect .poll s).out = vectorsOf s.out ++ [s.phase.vector] := by
  simp [effect_poll_of_fires h, fireTick, vectorsOf]

/-- R203: a poll that does not fire keeps the phase and emits nothing. -/
theorem effect_poll_phase_out_of_not_fires (h : ¬ Fires s) :
    (effect .poll s).phase = s.phase ∧ (effect .poll s).out = s.out := by
  obtain ⟨-, he⟩ | ⟨-, he⟩ := effect_poll_of_not_fires h <;> simp [he]

/-- R203: the phase is the scheduler's own. -/
theorem effect_phase_of_ne_poll (hi : i ≠ .poll) (s : State) : (effect i s).phase = s.phase := by
  cases i
  case poll => exact absurd rfl hi
  all_goals rfl

/-- R203: only a POLL requests interrupts; a port read replies and a sound write emits clips. -/
theorem vectorsOf_effect_of_ne_poll (hi : i ≠ .poll) (s : State) :
    vectorsOf (effect i s).out = vectorsOf s.out := by
  cases i
  case poll => exact absurd rfl hi
  case in1 | in2 | in3 | inOther => simp [effect, vectorsOf]
  case out3 | out5 => simp [effect]
  all_goals rfl

end

/-- Settles O31: the interrupt and the toggle of `deliverInterrupt`, and no phase or vector from elsewhere. -/
theorem firedPollAlternatesVectors : Obligations.FiredPollAlternatesVectors := by
  refine ⟨fun s h hf => ⟨effect .poll s, s.phase.vector, exec_of_accepting h .poll,
    vectorsOf_effect_poll_of_fires hf, ?_⟩, fun s t i hquiet ht => ?_⟩
  · rw [effect_poll_phase_of_fires hf]
    cases s.phase with
    | mid => exact ⟨fun _ => ⟨rfl, rfl⟩, nofun⟩
    | fin => exact ⟨nofun, fun _ => ⟨rfl, rfl⟩⟩
  · obtain ⟨-, rfl⟩ := exec_next ht
    by_cases hi : i = .poll
    · subst hi
      have hf : ¬ Fires s := hquiet.resolve_right (absurd rfl)
      obtain ⟨hphase, hout⟩ := effect_poll_phase_out_of_not_fires hf
      exact ⟨hphase, congrArg vectorsOf hout⟩
    · exact ⟨effect_phase_of_ne_poll hi s, vectorsOf_effect_of_ne_poll hi s⟩

/-- Settles O29: before the threshold the effect is the state itself, behind the gate it is the baseline. -/
theorem pollNotDueOrGated : Obligations.PollNotDueOrGated := by
  intro s sel d h
  refine ⟨decode_mkWord_poll sel d, fun hearly => ?_, fun hdue hinte => ?_⟩
  · rw [exec_of_accepting h, effect_poll_of_not_due hearly]
  · rw [exec_of_accepting h, effect_poll_of_gated hdue hinte]
    rfl

/-- Settles O30: the baseline is set last, and nothing before it moved the timebase. -/
theorem duePollResetsBaseline : Obligations.DuePollResetsBaseline := by
  intro s h hdue
  refine ⟨effect .poll s, exec_of_accepting h .poll, ?_⟩
  rw [effect_poll_of_due hdue, resetBaseline_tickBase, dueTick_now]

end Sys2Proof.Machine
end

section
/-! Exceptions: `60_exceptions.md` R221. The report of an invalid instruction as a move, then the obligation. -/

namespace Sys2Proof.Machine

/-- R221: reported inside the CPU's own `step()`, an invalid instruction is the fatal runtime failure. -/
theorem runMove_cpuInvalid {s : State} (h : Accepting s) (hturn : s.turn = .cpuStep) (b : Byte) (a : Nat) :
    runMove (.cpuInvalid b a) s = .next (failRun b a s) := by
  calc runMove (.cpuInvalid b a) s
      = inTurn .cpuStep s (.next (failRun b a s)) := whenAccepted_of_accepting h _
    _ = .next (failRun b a s) := inTurn_of_turn hturn _

/-- Settles O42: the step takes the report from the oldest move, and neither the acceptance test nor the turn
reads the moves left to come. -/
theorem invalidInstructionStopsRun : Obligations.InvalidInstructionStopsRun := by
  intro s b a rest h hturn hmoves
  have htaken : Accepting { s with moves := rest } := h
  rw [step_of_moves hmoves]
  exact runMove_cpuInvalid htaken hturn b a

end Sys2Proof.Machine
end

section
/-! Encoding: `30_encoding.md` R80 to R92. The decoder and the encoder are inverse to each other class by
class, the rows of the opcode table on the fields of a word, then the five obligations. -/

namespace Sys2Proof.Machine

/-! ### The decoder class by class (R91, R92) -/

/-- What the decoder can answer: the transaction of one of the five classes. -/
theorem decode_ok {w : Word} {i : Instr} (h : decode w = .ok i) :
    (w.cls = 0 ∧ i = decodeIn w.sel) ∨ (w.cls = 1 ∧ i = decodeOut w.sel w.data) ∨
      (w.cls = 2 ∧ i = decodeKeyup w.sel) ∨ (w.cls = 3 ∧ i = decodeKeydown w.sel) ∨
      (w.cls = 4 ∧ i = .poll) := by
  have cls_eq {n : Nat} (hn : w.cls.toNat = n) : w.cls = BitVec.ofNat 4 n := by simp [← hn]
  unfold decode at h
  split at h <;> cases h
  case h_1 hc => exact .inl ⟨cls_eq hc, rfl⟩
  case h_2 hc => exact .inr (.inl ⟨cls_eq hc, rfl⟩)
  case h_3 hc => exact .inr (.inr (.inl ⟨cls_eq hc, rfl⟩))
  case h_4 hc => exact .inr (.inr (.inr (.inl ⟨cls_eq hc, rfl⟩)))
  case h_5 hc => exact .inr (.inr (.inr (.inr ⟨cls_eq hc, rfl⟩)))

/-- R91: the reserved classes are refused by name. -/
theorem decode_of_reserved {w : Word} (h : 5 ≤ w.cls.toNat) : decode w = .error (.reservedClass w.cls) := by
  unfold decode
  split
  case h_6 => rfl
  all_goals omega

/-- R91: the classes 0 to 4 are legal. -/
theorem decode_of_legal {w : Word} (h : w.cls.toNat ≤ 4) : ∃ i, decode w = .ok i := by
  unfold decode
  split
  case h_6 =>
    simp only [imp_false] at *
    omega
  all_goals exact ⟨_, rfl⟩

/-- A refused word is of a reserved class. -/
theorem reserved_of_decode_error {w : Word} {e : DecodeError} (h : decode w = .error e) : 5 ≤ w.cls.toNat := by
  by_contra hlt
  obtain ⟨i, hi⟩ := decode_of_legal (w := w) (by omega)
  rw [hi] at h
  cases h

/-! ### Operands with no row of their own (R84, R86) -/

theorem wellFormed_inOther {port : Byte} :
    WellFormed (.inOther port) = true ↔ port ≠ 1 ∧ port ≠ 2 ∧ port ≠ 3 := by
  simp [WellFormed, mappedInPort, and_assoc]

theorem wellFormed_outOther {port v : Byte} :
    WellFormed (.outOther port v) = true ↔ port ≠ 2 ∧ port ≠ 3 ∧ port ≠ 4 ∧ port ≠ 5 := by
  simp [WellFormed, mappedOutPort, and_assoc]

theorem wellFormed_keyupOther {code : Byte} : WellFormed (.keyupOther code) = true ↔ 8 ≤ code.toNat := by
  simp [WellFormed, recognisedCode]

theorem wellFormed_keydownOther {code : Byte} : WellFormed (.keydownOther code) = true ↔ 8 ≤ code.toNat := by
  simp [WellFormed, recognisedCode]

/-! ### Encoding, then decoding -/

/-- R83, R92: the canonical word of a transaction decodes to it. -/
theorem decode_encode {i : Instr} (h : WellFormed i = true) : decode (encode i) = .ok i := by
  cases i
  case inOther port =>
    obtain ⟨h1, h2, h3⟩ := wellFormed_inOther.mp h
    rw [encode, decode_mkWord_in, decodeIn_of_unmapped h1 h2 h3]
  case outOther port v =>
    obtain ⟨h2, h3, h4, h5⟩ := wellFormed_outOther.mp h
    rw [encode, decode_mkWord_out, decodeOut_of_unmapped h2 h3 h4 h5]
  case keyupOther code =>
    rw [encode, decode_mkWord_keyup, decodeKeyup_of_unrecognised (wellFormed_keyupOther.mp h)]
  case keydownOther code =>
    rw [encode, decode_mkWord_keydown, decodeKeydown_of_unrecognised (wellFormed_keydownOther.mp h)]
  case in1 | in2 | in3 => exact decode_mkWord_in _ _
  case out2 | out3 | out4 | out5 => exact decode_mkWord_out _ _
  case poll => exact decode_mkWord_poll _ _
  case keyupCoin | keyupPlayer2Start | keyupPlayer1Start | keyupTilt | keyupFire | keyupLeft | keyupRight |
    keyupQuit => exact decode_mkWord_keyup _ _
  all_goals exact decode_mkWord_keydown _ _

/-! ### Decoding, then encoding -/

section
variable (sel data : Byte)

theorem encode_decodeIn : encode (decodeIn sel) = mkWord 0 sel 0 := by
  unfold decodeIn
  split
  case h_4 => rfl
  all_goals rename_i hsel; exact congrArg (mkWord 0 · 0) (BitVec.eq_of_toNat_eq hsel.symm)

theorem encode_decodeOut : encode (decodeOut sel data) = mkWord 1 sel data := by
  unfold decodeOut
  split
  case h_5 => rfl
  all_goals rename_i hsel; exact congrArg (mkWord 1 · data) (BitVec.eq_of_toNat_eq hsel.symm)

theorem encode_decodeKeyup : encode (decodeKeyup sel) = mkWord 2 sel 0 := by
  unfold decodeKeyup
  split
  case h_9 => rfl
  all_goals rename_i hsel; exact congrArg (mkWord 2 · 0) (BitVec.eq_of_toNat_eq hsel.symm)

theorem encode_decodeKeydown : encode (decodeKeydown sel) = mkWord 3 sel 0 := by
  unfold decodeKeydown
  split
  case h_9 => rfl
  all_goals rename_i hsel; exact congrArg (mkWord 3 · 0) (BitVec.eq_of_toNat_eq hsel.symm)

/-- R84: a port that reaches the last row has no row of its own. -/
theorem wellFormed_decodeIn : WellFormed (decodeIn sel) = true := by
  unfold decodeIn
  split
  case h_4 h1 h2 h3 =>
    refine wellFormed_inOther.mpr ⟨?_, ?_, ?_⟩ <;> rintro rfl
    exacts [h1 rfl, h2 rfl, h3 rfl]
  all_goals rfl

theorem wellFormed_decodeOut : WellFormed (decodeOut sel data) = true := by
  unfold decodeOut
  split
  case h_5 h2 h3 h4 h5 =>
    refine wellFormed_outOther.mpr ⟨?_, ?_, ?_, ?_⟩ <;> rintro rfl
    exacts [h2 rfl, h3 rfl, h4 rfl, h5 rfl]
  all_goals rfl

/-- R86: a code that reaches the last row is 8 or above. -/
theorem wellFormed_decodeKeyup : WellFormed (decodeKeyup sel) = true := by
  unfold decodeKeyup
  split
  case h_9 =>
    simp only [imp_false] at *
    exact wellFormed_keyupOther.mpr (by omega)
  all_goals rfl

theorem wellFormed_decodeKeydown : WellFormed (decodeKeydown sel) = true := by
  unfold decodeKeydown
  split
  case h_9 =>
    simp only [imp_false] at *
    exact wellFormed_keydownOther.mpr (by omega)
  all_goals rfl

end

/-- R83: what decodes is a transaction of the table, and its canonical word keeps every field that is not a
don't-care. -/
theorem encode_fields_of_decode {w : Word} {i : Instr} (h : decode w = .ok i) :
    WellFormed i = true ∧ (encode i).cls = w.cls ∧
      (w.cls.toNat ≤ 3 → (encode i).sel = w.sel) ∧ (w.cls = 1 → (encode i).data = w.data) := by
  obtain ⟨hc, rfl⟩ | ⟨hc, rfl⟩ | ⟨hc, rfl⟩ | ⟨hc, rfl⟩ | ⟨hc, rfl⟩ := decode_ok h
  · simp [wellFormed_decodeIn, encode_decodeIn, hc]
  · simp [wellFormed_decodeOut, encode_decodeOut, hc]
  · simp [wellFormed_decodeKeyup, encode_decodeKeyup, hc]
  · simp [wellFormed_decodeKeydown, encode_decodeKeydown, hc]
  · simp [WellFormed, encode, hc]

/-! ### The opcode table on the fields of a word (R92) -/

theorem word_ext {v w : Word} (hc : v.cls = w.cls) (hs : v.sel = w.sel) (hd : v.data = w.data) : v = w := by
  rw [← mkWord_fields v, ← mkWord_fields w, hc, hs, hd]

/-- A row fits a word when it fits it field by field. -/
theorem fits_iff (row : TableRow) (w : Word) :
    row.fits w = true ↔ w.cls &&& row.mask.cls = row.value.cls ∧ w.sel &&& row.mask.sel = row.value.sel ∧
      w.data &&& row.mask.data = row.value.data := by
  have hand (p q : Word) : (p &&& q).cls = p.cls &&& q.cls ∧ (p &&& q).sel = p.sel &&& q.sel ∧
      (p &&& q).data = p.data &&& q.data := ⟨BitVec.extractLsb'_and, BitVec.extractLsb'_and, BitVec.extractLsb'_and⟩
  obtain ⟨hc, hs, hd⟩ := hand w row.mask
  rw [TableRow.fits, beq_iff_eq, ← hc, ← hs, ← hd]
  exact ⟨fun h => h ▸ ⟨rfl, rfl, rfl⟩, fun ⟨h1, h2, h3⟩ => word_ext h1 h2 h3⟩

/-- A mask of the table is long, `class` and `sel`, or short, `class` alone; no row asks for a reserved class. -/
theorem opcodeTable_masks : ∀ row ∈ opcodeTable,
    row.mask.cls = 0xF ∧ row.value.cls.toNat ≤ 4 ∧ (row.mask = 0xFFF00 → row.mask.sel = 0xFF) := by decide

theorem cls_of_fits {row : TableRow} {w : Word} (hrow : row ∈ opcodeTable) (h : row.fits w = true) :
    w.cls = row.value.cls := by
  obtain ⟨hmask, -, -⟩ := opcodeTable_masks row hrow
  rw [← ((fits_iff row w).mp h).1, hmask]
  exact BitVec.and_allOnes.symm

theorem sel_of_fits_long {row : TableRow} {w : Word} (hrow : row ∈ opcodeTable) (hlong : row.mask = 0xFFF00)
    (h : row.fits w = true) : w.sel = row.value.sel := by
  obtain ⟨-, -, hmask⟩ := opcodeTable_masks row hrow
  rw [← ((fits_iff row w).mp h).2.1, hmask hlong]
  exact BitVec.and_allOnes.symm

/-- The transactions whose row has the short mask. -/
def hasShortMask : Instr → Bool
  | .inOther _ | .outOther _ _ | .keyupOther _ | .keydownOther _ | .poll => true
  | .in1 | .in2 | .in3 | .out2 _ | .out3 _ | .out4 _ | .out5 _ => false
  | .keyupCoin | .keyupPlayer2Start | .keyupPlayer1Start | .keyupTilt => false
  | .keyupFire | .keyupLeft | .keyupRight | .keyupQuit => false
  | .keydownCoin | .keydownPlayer2Start | .keydownPlayer1Start | .keydownTilt => false
  | .keydownFire | .keydownLeft | .keydownRight | .keydownQuit => false

/-- The row of a transaction: its class, its `sel` under the long mask, and its mnemonic; `rowOf_mem` finds it
in the table. -/
def rowOf (i : Instr) : TableRow :=
  if hasShortMask i then ⟨0xF0000, mkWord (encode i).cls 0 0, mnemonicOf i⟩
  else ⟨0xFFF00, mkWord (encode i).cls (encode i).sel 0, mnemonicOf i⟩

theorem rowOf_mnemonic (i : Instr) : (rowOf i).mnemonic = mnemonicOf i := by
  unfold rowOf
  split <;> rfl

theorem rowOf_mem (i : Instr) : rowOf i ∈ opcodeTable := by
  cases i <;> simp only [rowOf, hasShortMask, encode, cls_mkWord, sel_mkWord, mnemonicOf, if_true] <;> decide

/-- R92: a word has the bits of the row of what it decodes to. -/
theorem rowOf_fits {w : Word} {i : Instr} (h : decode w = .ok i) : (rowOf i).fits w = true := by
  obtain ⟨-, hcls, hsel, -⟩ := encode_fields_of_decode h
  have hclsMask : w.cls &&& 15#4 = w.cls := BitVec.and_allOnes
  have hselMask : w.sel &&& 255#8 = w.sel := BitVec.and_allOnes
  unfold rowOf
  split
  · have hmask : (0xF0000 : Word) = mkWord 0xF 0 0 := by decide
    rw [fits_iff, hmask]
    simp [hcls, hclsMask]
  · rename_i hlong
    have hmask : (0xFFF00 : Word) = mkWord 0xF 0xFF 0 := by decide
    have hle : w.cls.toNat ≤ 3 := by
      obtain ⟨hc, -⟩ | ⟨hc, -⟩ | ⟨hc, -⟩ | ⟨hc, -⟩ | ⟨-, rfl⟩ := decode_ok h
      case inr.inr.inr.inr => exact absurd rfl hlong
      all_goals rw [hc]; decide
    rw [fits_iff, hmask]
    simp [hcls, hsel hle, hclsMask, hselMask]

/-- R83: the data byte of an OUT does not choose its row. -/
theorem rowOf_decodeOut (sel data data' : Byte) : rowOf (decodeOut sel data) = rowOf (decodeOut sel data') := by
  unfold decodeOut
  split <;> simp [rowOf, hasShortMask, encode, mnemonicOf]

/-- The row of a word is chosen by its `class` and `sel`. -/
theorem rowOf_congr {v w : Word} {i j : Instr} (hv : decode v = .ok i) (hw : decode w = .ok j)
    (hc : v.cls = w.cls) (hs : v.sel = w.sel) : rowOf i = rowOf j := by
  have hv' : decode (mkWord w.cls w.sel v.data) = .ok i := by rw [← hc, ← hs, mkWord_fields, hv]
  obtain ⟨h, rfl⟩ | ⟨h, rfl⟩ | ⟨h, rfl⟩ | ⟨h, rfl⟩ | ⟨h, rfl⟩ := decode_ok hw <;> rw [h] at hv'
  · rw [decode_mkWord_in] at hv'; cases hv'; rfl
  · rw [decode_mkWord_out] at hv'; cases hv'; exact rowOf_decodeOut _ _ _
  · rw [decode_mkWord_keyup] at hv'; cases hv'; rfl
  · rw [decode_mkWord_keydown] at hv'; cases hv'; rfl
  · rw [decode_mkWord_poll] at hv'; cases hv'; rfl

/-- The word under a long mask decodes to the transaction of its row. -/
theorem decode_long_row : ∀ row ∈ opcodeTable, row.mask = 0xFFF00 →
    (decode row.value).toOption.map rowOf = some row := by
  decide

/-- R92: longest mask first, a row with the long mask that fits is the row of what the word decodes to. -/
theorem eq_rowOf_of_long {w : Word} {i : Instr} {row : TableRow} (h : decode w = .ok i)
    (hrow : row ∈ opcodeTable) (hfits : row.fits w = true) (hlong : row.mask = 0xFFF00) : row = rowOf i := by
  have hvalue := decode_long_row row hrow hlong
  cases hj : decode row.value with
  | error e => rw [hj] at hvalue; cases hvalue
  | ok j =>
    rw [hj] at hvalue
    calc row = rowOf j := (Option.some.inj hvalue).symm
      _ = rowOf i := rowOf_congr hj h (cls_of_fits hrow hfits).symm (sel_of_fits_long hrow hlong hfits).symm

/-! ### The obligations -/

/-- Settles O2: class by class, with the operands that have no row of their own told apart by well-formedness. -/
theorem decodeOfEncode : Obligations.DecodeOfEncode := fun _ h => decode_encode h

/-- Settles O3: each class's decoder is undone by the encoder up to the don't-care fields. -/
theorem encodeOfDecode : Obligations.EncodeOfDecode := fun _ _ h => encode_fields_of_decode h

/-- Settles O4: the row of the decoded transaction fits, a long row that fits is that row, and a row that fits
rules out the reserved classes. -/
theorem decoderFollowsOpcodeTable : Obligations.DecoderFollowsOpcodeTable := by
  refine ⟨fun w i h => ⟨rowOf i, rowOf_mem i, rowOf_fits h, rowOf_mnemonic i, fun other hother hfits hlong =>
    eq_rowOf_of_long h hother hfits hlong⟩, fun w e h row hrow => ?_⟩
  have hreserved := reserved_of_decode_error h
  obtain ⟨-, hlegal, -⟩ := opcodeTable_masks row hrow
  by_contra hfits
  rw [cls_of_fits hrow (Bool.eq_true_of_not_eq_false hfits)] at hreserved
  omega

/-- Settles O1: the decoder evaluated on eleven words. -/
theorem specWordsDecode : Obligations.SpecWordsDecode := by
  unfold Obligations.SpecWordsDecode
  decide

/-- Settles O5: in an accepting state the decoder's refusal is the step's. -/
theorem reservedClassesRefused : Obligations.ReservedClassesRefused := by
  intro w
  refine ⟨decode_of_legal, fun h => ⟨decode_of_reserved h, fun s rest hs hm => ?_⟩⟩
  rw [step_of_moves hm]
  calc runMove (.transaction w) { s with moves := rest }
      = runWord w { s with moves := rest } := whenAccepted_of_accepting (s := { s with moves := rest }) hs _
    _ = .refused (.reservedClass w.cls) := by simp only [runWord, decode_of_reserved h]

end Sys2Proof.Machine
end

section
/-! The transactions as a whole: `00_scope.md` section 5, `60_exceptions.md` section 1, `70_reset_and_hazards.md`
section 3. What a POLL can do, what no transaction changes, what each class emits, what is isolated from what. -/

namespace Sys2Proof.Machine

/-! ### What a POLL can do, and what an operator's transaction can do -/

/-- R201 to R205: a POLL does nothing, sets the baseline alone, or fires. -/
theorem effect_poll_cases (s : State) :
    effect .poll s = s ∨ effect .poll s = resetBaseline s ∨
      Fires s ∧ effect .poll s = resetBaseline (fireTick s) := by
  by_cases hf : Fires s
  · exact .inr (.inr ⟨hf, effect_poll_of_fires hf⟩)
  · obtain ⟨-, he⟩ | ⟨-, he⟩ := effect_poll_of_not_fires hf
    · exact .inl he
    · exact .inr (.inl he)

/-- R133, R141 to R143, R151, R152: the operator presses or releases a control, stops the run, or does nothing. -/
theorem effect_operator_cases {i : Instr} (hi : issuerOf i = .operator) (s : State) :
    effect i s = s ∨ effect i s = stopRun s ∨
      ∃ ctl, effect i s = pressControl ctl s ∨ effect i s = releaseControl ctl s := by
  cases i
  case keydownQuit => exact .inr (.inl rfl)
  case keyupQuit | keyupOther | keydownOther => exact .inl rfl
  case keydownCoin | keydownPlayer2Start | keydownPlayer1Start | keydownTilt | keydownFire | keydownLeft |
    keydownRight => exact .inr (.inr ⟨_, .inl rfl⟩)
  case keyupCoin | keyupPlayer2Start | keyupPlayer1Start | keyupTilt | keyupFire | keyupLeft | keyupRight =>
    exact .inr (.inr ⟨_, .inr rfl⟩)
  all_goals cases hi

/-! ### What no transaction changes (R33, R60) -/

/-- A transaction writes nothing but the block's own items, the run, the events, and in a POLL the memory. -/
theorem effect_frame (i : Instr) (s : State) :
    effect i s = { s with
      inputPort1 := (effect i s).inputPort1
      inputPort2 := (effect i s).inputPort2
      shiftLow := (effect i s).shiftLow
      shiftHigh := (effect i s).shiftHigh
      shiftOffset := (effect i s).shiftOffset
      lastSoundPort3 := (effect i s).lastSoundPort3
      lastSoundPort5 := (effect i s).lastSoundPort5
      phase := (effect i s).phase
      tickBase := (effect i s).tickBase
      frameBuffer := (effect i s).frameBuffer
      run := (effect i s).run
      mem := (effect i s).mem
      out := (effect i s).out } := by
  cases i
  case poll => obtain he | he | ⟨-, he⟩ := effect_poll_cases s <;> rw [he] <;> rfl
  all_goals rfl

section
variable (i : Instr) (s : State)

@[simp] theorem effect_inte : (effect i s).inte = s.inte := by rw [effect_frame]
@[simp] theorem effect_now : (effect i s).now = s.now := by rw [effect_frame]
@[simp] theorem effect_clipTable : (effect i s).clipTable = s.clipTable := by rw [effect_frame]
@[simp] theorem effect_deliveryStores : (effect i s).deliveryStores = s.deliveryStores :=
  by rw [effect_frame]
@[simp] theorem effect_diagnostic : (effect i s).diagnostic = s.diagnostic :=
  by rw [effect_frame]
@[simp] theorem effect_moves : (effect i s).moves = s.moves := by rw [effect_frame]

end

/-- R206: memory, frame buffer and baseline are changed by a POLL only. -/
theorem effect_mem_frameBuffer_tickBase_of_ne_poll {i : Instr} (hi : i ≠ .poll) (s : State) :
    (effect i s).mem = s.mem ∧ (effect i s).frameBuffer = s.frameBuffer ∧ (effect i s).tickBase = s.tickBase := by
  cases i
  case poll => exact absurd rfl hi
  all_goals exact ⟨rfl, rfl, rfl⟩

/-- R50, R229: a transaction leaves the memory alone or, firing, makes the delivery's stores. -/
theorem effect_mem_cases (i : Instr) (s : State) :
    (effect i s).mem = s.mem ∨ (effect i s).mem = Memory.storeAll s.mem s.deliveryStores := by
  by_cases hi : i = .poll
  · subst hi
    obtain he | he | ⟨-, he⟩ := effect_poll_cases s <;> rw [he]
    · exact .inl rfl
    · exact .inl rfl
    · exact .inr rfl
  · exact .inl (effect_mem_frameBuffer_tickBase_of_ne_poll hi s).1

/-- R203 to R205: what the gated tick does, the baseline apart. -/
@[simp] theorem dueTick_tickBase (s : State) : (dueTick s).tickBase = s.tickBase := by
  unfold dueTick
  split <;> rfl

/-! ### Isolation (R115, R153) -/

/-- A POLL goes through a change of the state that neither its tests nor its updates look at. -/
theorem effect_poll_comm {f : State → State} (hdue : ∀ s, isDue (f s) = isDue s) (hinte : ∀ s, (f s).inte = s.inte)
    (hfire : ∀ s, fireTick (f s) = f (fireTick s)) (hbase : ∀ s, resetBaseline (f s) = f (resetBaseline s))
    (s : State) : effect .poll (f s) = f (effect .poll s) := by
  have htick : dueTick (f s) = f (dueTick s) := by
    rw [dueTick, dueTick, hinte, hfire, apply_ite f]
  rw [effect, effect, hdue, htick, hbase, apply_ite f]

/-- The acceptance test goes through a change of neither the parameters nor the run. -/
theorem exec_comm {f : State → State} {i : Instr} (hparams : ∀ s, (f s).params = s.params)
    (hrun : ∀ s, (f s).run = s.run) {s : State} (heffect : effect i (f s) = f (effect i s)) :
    exec i (f s) = mapNext f (exec i s) := by
  rw [exec_eq, exec_eq, mapNext_accept, heffect, accept, accept, whenAccepted, whenAccepted, hparams, hrun]

/-- R115: a transaction other than OUT 2, OUT 4 and IN 3 neither reads nor writes the shift latches. -/
theorem effect_withShiftLatches {i : Instr} (h3 : i ≠ .in3) (h2 : ∀ v, i ≠ .out2 v) (h4 : ∀ v, i ≠ .out4 v)
    (lo hi : Byte) (o : BitVec 3) (s : State) :
    effect i (withShiftLatches lo hi o s) = withShiftLatches lo hi o (effect i s) := by
  cases i
  case in3 => exact absurd rfl h3
  case out2 v => exact absurd rfl (h2 v)
  case out4 v => exact absurd rfl (h4 v)
  case poll =>
    exact effect_poll_comm (f := withShiftLatches lo hi o) (fun _ => rfl) (fun _ => rfl) (fun _ => rfl)
      (fun _ => rfl) s
  all_goals rfl

/-- R153: IN 1, IN 2 and the operator apart, a transaction neither reads nor writes the input ports. -/
theorem effect_withInputPorts {i : Instr} (hi : issuerOf i ≠ .operator) (h1 : i ≠ .in1) (h2 : i ≠ .in2)
    (p1 p2 : Byte) (s : State) :
    effect i (withInputPorts p1 p2 s) = withInputPorts p1 p2 (effect i s) := by
  cases i
  case in1 => exact absurd rfl h1
  case in2 => exact absurd rfl h2
  case poll =>
    exact effect_poll_comm (f := withInputPorts p1 p2) (fun _ => rfl) (fun _ => rfl) (fun _ => rfl)
      (fun _ => rfl) s
  case in3 | inOther | out2 | out3 | out4 | out5 | outOther => rfl
  all_goals exact absurd rfl hi

/-- R153: only the operator writes the input ports. -/
theorem effect_inputPorts_of_not_operator {i : Instr} (hi : issuerOf i ≠ .operator) (s : State) :
    (effect i s).inputPort1 = s.inputPort1 ∧ (effect i s).inputPort2 = s.inputPort2 := by
  cases i
  case poll => obtain he | he | ⟨-, he⟩ := effect_poll_cases s <;> rw [he] <;> exact ⟨rfl, rfl⟩
  case in1 | in2 | in3 | inOther | out2 | out3 | out4 | out5 | outOther => exact ⟨rfl, rfl⟩
  all_goals exact absurd rfl hi

/-- Setting or clearing the bits of a mask leaves the bits of a disjoint one. -/
theorem and_disjoint {m u : Byte} (h : m &&& u = 0) (p : Byte) :
    (p ||| m) &&& u = p &&& u ∧ (p &&& ~~~m) &&& u = p &&& u := by
  have hbit (k : Nat) (hk : k < 8) : (m.getLsbD k && u.getLsbD k) = false := by
    simpa using congrArg (BitVec.getLsbD · k) h
  constructor <;> refine BitVec.eq_of_getLsbD_eq fun k hk => ?_ <;>
    cases hm : m.getLsbD k <;> simp_all

/-- R153, `10_state.md` R21, R22: no transaction changes a bit that no control drives. -/
theorem effect_undriven (i : Instr) (s : State) :
    (effect i s).inputPort1 &&& undrivenMask1 = s.inputPort1 &&& undrivenMask1 ∧
      (effect i s).inputPort2 &&& undrivenMask2 = s.inputPort2 &&& undrivenMask2 := by
  by_cases hi : issuerOf i = .operator
  · obtain he | he | ⟨ctl, hctl⟩ := effect_operator_cases hi s
    · rw [he]; exact ⟨rfl, rfl⟩
    · rw [he]; exact ⟨rfl, rfl⟩
    · obtain ⟨h1, h2⟩ := masks_undriven ctl
      obtain he | he := hctl <;> rw [he]
      · exact ⟨(and_disjoint h1 _).1, (and_disjoint h2 _).1⟩
      · exact ⟨(and_disjoint h1 _).2, (and_disjoint h2 _).2⟩
  · obtain ⟨h1, h2⟩ := effect_inputPorts_of_not_operator hi s
    rw [h1, h2]
    exact ⟨rfl, rfl⟩

/-! ### The events of each class (R12, R80) -/

theorem cls_encode (i : Instr) : (encode i).cls = Laws.EncodeClass.classOf i := by
  cases i <;> exact cls_mkWord _ _ _

/-- R203, R204: a POLL emits nothing, or an interrupt and then the frame it drew. -/
theorem effect_out_poll (s : State) : (effect .poll s).out = s.out ∨
    (effect .poll s).out = s.out ++ [.interrupt s.phase.vector, .frame (effect .poll s).frameBuffer] := by
  obtain he | he | ⟨-, he⟩ := effect_poll_cases s <;> rw [he]
  · exact .inl rfl
  · exact .inl rfl
  · exact .inr (List.append_assoc _ _ _)

/-! ### The obligations -/

/-- Settles O39: an accepting state takes the effect of any transaction. -/
theorem everyTransactionCompletes : Obligations.EveryTransactionCompletes :=
  fun i s h => ⟨effect i s, exec_of_accepting h i⟩

/-- Settles O41: nothing outside `effect_frame`'s list is written, and the memory only by the delivery. -/
theorem transactionFrame : Obligations.TransactionFrame := by
  intro i s t h
  obtain ⟨-, rfl⟩ := exec_next h
  refine ⟨fun hwf a ha => ?_, fun hi => ?_, by simp⟩
  · obtain hmem | hmem := effect_mem_cases i s <;> rw [hmem]
    exact Memory.read_storeAll_other hwf _ ha
  · obtain ⟨hmem, hfb, hbase⟩ := effect_mem_frameBuffer_tickBase_of_ne_poll hi s
    exact ⟨hmem, hfb, effect_phase_of_ne_poll hi s, hbase⟩

/-- Settles O40: constructor by constructor, the events its effect appends. -/
theorem eventsByClass : Obligations.EventsByClass := by
  intro i s t h
  obtain ⟨-, rfl⟩ := exec_next h
  rw [cls_encode]
  cases i
  case in1 | in2 | in3 | inOther => exact ⟨_, rfl, fun _ => ⟨_, rfl⟩, nofun, nofun, nofun⟩
  case out3 | out5 => exact ⟨_, rfl, nofun, fun _ _ => eq_clip_of_mem_clipEvents, nofun, nofun⟩
  case poll =>
    obtain he | he := effect_out_poll s
    · exact ⟨[], by simp [he], nofun, nofun, nofun, fun _ => .inl rfl⟩
    · exact ⟨_, he, nofun, nofun, nofun, fun _ => .inr ⟨_, rfl⟩⟩
  all_goals exact ⟨[], (List.append_nil _).symm, nofun, by simp, fun _ => rfl, nofun⟩

/-- Settles O15: the effects commute with other latches, and each of the three touches its own. -/
theorem shiftLatchesIsolated : Obligations.ShiftLatchesIsolated := by
  intro s lo hi o
  refine ⟨fun i h3 h2 h4 => ?_, fun v t ht => ?_, fun v t ht => ?_, fun t ht => ?_⟩
  · exact exec_comm (f := withShiftLatches lo hi o) (fun _ => rfl) (fun _ => rfl)
      (effect_withShiftLatches h3 h2 h4 lo hi o s)
  · obtain ⟨ha, rfl⟩ := exec_next ht
    exact exec_of_accepting (s := withShiftLatches lo hi o s) ha (.out2 v)
  · obtain ⟨ha, rfl⟩ := exec_next ht
    exact exec_of_accepting (s := withShiftLatches lo s.shiftHigh o s) ha (.out4 v)
  · obtain ⟨-, rfl⟩ := exec_next ht
    exact ⟨rfl, rfl, rfl⟩

/-- Settles O21: no control drives the masked bits, only the operator writes the ports, and the effects of the
others commute with other ports. -/
theorem inputPortsIsolated : Obligations.InputPortsIsolated := by
  intro i s
  refine ⟨fun t ht => ?_, fun t hi ht => ?_, fun p1 p2 hi h1 h2 => ?_⟩
  · obtain ⟨-, rfl⟩ := exec_next ht
    exact effect_undriven i s
  · obtain ⟨-, rfl⟩ := exec_next ht
    exact effect_inputPorts_of_not_operator hi s
  · exact exec_comm (f := withInputPorts p1 p2) (fun _ => rfl) (fun _ => rfl)
      (effect_withInputPorts hi h1 h2 p1 p2 s)

/-- Settles O33: the two POLLs make the same tick, and the tick leaves the baseline alone. -/
theorem untimedPollAdmitsTimedPoll : Obligations.UntimedPollAdmitsTimedPoll := by
  intro s t h
  obtain ⟨ha, rfl⟩ := exec_next h
  rw [execPollUntimed, accept_of_accepting ha]
  cases hdue : isDue s with
  | false => simp [effect, hdue]
  | true =>
    have hbase : dueTick s = { dueTick s with tickBase := s.tickBase } := by rw [← dueTick_tickBase s]
    simpa [effect, hdue, resetBaseline] using hbase

end Sys2Proof.Machine
end

section
/-! One step: `00_scope.md` section 5, `60_exceptions.md` section 1, `70_reset_and_hazards.md` R261, R271. What
each move does when it is accepted, what stops a run, and what has no step. -/

namespace Sys2Proof.Machine

/-! ### The moves of an accepting state (R271, logs 1, 29) -/

section
variable {s : State}

theorem runMove_timebase (h : Accepting s) (t : Nat) : runMove (.timebase t) s = .next { s with now := t } :=
  whenAccepted_of_accepting h _

theorem setDelivery_of_within {d : List Host.Cell} (hd : Memory.within d s.params.memSize = true) :
    setDelivery d s = .next { s with deliveryStores := d } := by
  have hnone : (d.find? fun c => decide (s.params.memSize ≤ c.1)) = none := by
    simpa [Memory.within] using hd
  simp only [setDelivery, hnone]

theorem runMove_cpuDelivery (h : Accepting s) {d : List Host.Cell} (hd : Memory.within d s.params.memSize = true) :
    runMove (.cpuDelivery d) s = .next { s with deliveryStores := d } := by
  rw [← setDelivery_of_within hd]
  exact whenAccepted_of_accepting h _

theorem runMove_cpuInte (h : Accepting s) (hturn : s.turn = .cpuStep) (b : Bool) :
    runMove (.cpuInte b) s = .next { s with inte := b } :=
  (whenAccepted_of_accepting h _).trans (inTurn_of_turn hturn _)

theorem runMove_cpuStepDone (h : Accepting s) (hturn : s.turn = .cpuStep) :
    runMove .cpuStepDone s = .next { s with turn := .events } :=
  (whenAccepted_of_accepting h _).trans (inTurn_of_turn hturn _)

theorem runMove_cpuStore (h : Accepting s) (hturn : s.turn = .cpuStep) {a : Nat} (ha : a < s.params.memSize)
    (v : Byte) : runMove (.cpuStore a v) s = .next { s with mem := Memory.write s.mem a v } :=
  ((whenAccepted_of_accepting h _).trans (inTurn_of_turn hturn _)).trans (if_pos ha)

theorem runMove_cpuStore_outside (h : Accepting s) (hturn : s.turn = .cpuStep) {a : Nat}
    (ha : s.params.memSize ≤ a) (v : Byte) : runMove (.cpuStore a v) s = .fault (.addressOutsideMemory a) :=
  ((whenAccepted_of_accepting h _).trans (inTurn_of_turn hturn _)).trans (if_neg ha.not_gt)

/-- R271: a move presented out of its part is refused. -/
theorem inTurn_refused {turn : Turn} (hturn : s.turn ≠ turn) (o : Host.Outcome State Fault Refusal) :
    inTurn turn s o = .refused .outOfTurn := if_neg hturn

theorem runMove_word_out_of_turn (h : Accepting s) {w : Word} {i : Instr} (hd : decode w = .ok i)
    (hturn : s.turn ≠ (issuerOf i).turn) : runMove (.transaction w) s = .refused .outOfTurn := by
  rw [runMove, whenAccepted_of_accepting h]
  simp only [runWord, hd]
  exact inTurn_refused hturn _

end

/-! ### Acceptance (R59, R261) -/

/-- Whatever a step does is behind the acceptance test. -/
theorem step_eq_whenAccepted (s : State) : ∃ o, step s = whenAccepted s o := by
  rw [step, takeMove]
  cases s.moves with
  | nil => exact ⟨.next s, rfl⟩
  | cons m rest => exact ⟨_, rfl⟩

theorem configurationOk_eq_false {p : Params} :
    configurationOk p = false ↔ p.memSize < p.vramBase + 7168 ∨ p.tickThreshold = 0 := by
  rw [configurationOk, Bool.and_eq_false_iff, decide_eq_false_iff_not, decide_eq_false_iff_not, vramSize]
  omega

/-- R261: of all moves, only the press of quit and the report of an invalid instruction set `run`. -/
theorem runMove_run {m : Move} {s t : State} (h : runMove m s = .next t) :
    t.run = s.run ∨ (∃ w, m = .transaction w ∧ decode w = .ok .keydownQuit) ∨ ∃ b a, m = .cpuInvalid b a := by
  obtain ⟨-, ⟨w, i, rfl, hd, -, rfl⟩ | ⟨_, -, rfl⟩ | ⟨_, _, -, -, -, rfl⟩ | ⟨_, -, -, rfl⟩ | ⟨_, -, -, rfl⟩ |
    ⟨b, a, rfl, -, -⟩ | ⟨-, -, rfl⟩⟩ := runMove_next h
  · by_cases hi : i = .keydownQuit
    · exact .inr (.inl ⟨w, rfl, hi ▸ hd⟩)
    · exact .inl (effect_run hi _)
  · exact .inl rfl
  · exact .inl rfl
  · exact .inl rfl
  · exact .inl rfl
  · exact .inr (.inr ⟨b, a, rfl⟩)
  · exact .inl rfl

/-! ### A table word placed with `withFetchWord` (logs 1, 3) -/

theorem decode_tableWord {nbits w : Nat} {i : Instr} (h : decodeTableWord nbits w = some i) :
    decode (tableWord nbits w) = .ok i := by
  unfold decodeTableWord at h
  split at h
  · split at h
    · cases h; assumption
    · cases h
  · cases h

/-! ### The obligations -/

/-- Settles O6: the step takes the word, and `withFetchWord` presents it in its part of the iteration. -/
theorem stepRunsDecodedTransaction : Obligations.StepRunsDecodedTransaction := by
  have hword (s : State) (w : Word) (i : Instr) (rest : List Move) (h : Accepting s)
      (hm : s.moves = .transaction w :: rest) (hd : decode w = .ok i) (ht : s.turn = (issuerOf i).turn) :
      step s = exec i { s with moves := rest, turn := (issuerOf i).turnAfter } := by
    have ha : Accepting { s with moves := rest, turn := (issuerOf i).turnAfter } := h
    rw [step_word h ht hm hd, exec_of_accepting ha]
  refine ⟨hword, fun s nbits w i h hw => ?_⟩
  have hd := decode_tableWord hw
  have ht : (s.withFetchWord nbits w).turn = (issuerOf i).turn := by
    simp only [State.withFetchWord, turnForWord, hd]
  exact hword (s.withFetchWord nbits w) (tableWord nbits w) i s.moves h rfl hd ht

/-- Settles O7: move by move, each on the state without it. -/
theorem stepRunsOtherMoves : Obligations.StepRunsOtherMoves := by
  intro s rest h
  have htaken : Accepting { s with moves := rest } := h
  refine ⟨step_idle h, fun t hm => ?_, fun b hturn hm => ?_, fun hturn hm => ?_, fun d hd hm => ?_⟩
  · rw [step_of_moves hm, runMove_timebase htaken]
  · rw [step_of_moves hm, runMove_cpuInte htaken hturn]
  · rw [step_of_moves hm, runMove_cpuStepDone htaken hturn]
  · rw [step_of_moves hm, runMove_cpuDelivery htaken hd]

/-- Settles O8: inside the array the store is `Memory.write`, with its read law; outside it there is no byte. -/
theorem cpuStoreChangesOneByte : Obligations.CpuStoreChangesOneByte := by
  intro s a v rest h hturn hwf hm
  have htaken : Accepting { s with moves := rest } := h
  rw [step_of_moves hm]
  exact ⟨fun ha => ⟨Memory.write s.mem a v, runMove_cpuStore htaken hturn ha v, Memory.write_wf hwf a v,
    fun b => Memory.read_write hwf a b v⟩, fun ha => runMove_cpuStore_outside htaken hturn ha v⟩

/-- Settles O43: the acceptance test faults. -/
theorem stoppedAcceptsNothing : Obligations.StoppedAcceptsNothing := by
  intro s hc hr
  obtain ⟨o, ho⟩ := step_eq_whenAccepted s
  exact ⟨ho.trans (whenAccepted_stopped hc hr o), fun i => (exec_eq i s).trans (whenAccepted_stopped hc hr _)⟩

/-- Settles O45: the acceptance test refuses the configuration. -/
theorem badConfigurationRefused : Obligations.BadConfigurationRefused := by
  intro s h
  have hc := configurationOk_eq_false.mpr h
  obtain ⟨o, ho⟩ := step_eq_whenAccepted s
  exact ⟨ho.trans (whenAccepted_refused hc o), fun i => (exec_eq i s).trans (whenAccepted_refused hc _)⟩

/-- Settles O44: of all that a move can do, only two set `run`. -/
theorem stopOnlyByQuitOrInvalid : Obligations.StopOnlyByQuitOrInvalid := by
  intro s t h hstopped
  obtain ⟨⟨-, hrunning⟩, ⟨-, rfl⟩ | ⟨m, rest, hm, hmove⟩⟩ := step_next h
  · exact absurd (hrunning.symm.trans hstopped) Run.noConfusion
  · refine ⟨rest, (runMove_run hmove).elim (fun hkept => ?_) (Or.imp ?_ ?_)⟩
    · exact absurd (hrunning.symm.trans (hkept.symm.trans hstopped)) Run.noConfusion
    · rintro ⟨w, rfl, hd⟩
      exact ⟨w, hm, hd⟩
    · rintro ⟨b, a, rfl⟩
      exact ⟨b, a, hm⟩

/-- Settles O51: `inTurn` refuses each, on the state without the move. -/
theorem outOfTurnMovesRefused : Obligations.OutOfTurnMovesRefused := by
  intro s rest h
  have htaken : Accepting { s with moves := rest } := h
  refine ⟨fun w i hm hd hturn => ?_, fun hturn => ?_⟩
  · rw [step_of_moves hm]
    exact runMove_word_out_of_turn htaken hd hturn
  · have hout : s.turn ≠ .cpuStep := by rw [hturn]; exact Turn.noConfusion
    have hrefused (o : Host.Outcome State Fault Refusal) :
        whenAccepted { s with moves := rest } (inTurn .cpuStep { s with moves := rest } o) = .refused .outOfTurn :=
      (whenAccepted_of_accepting htaken _).trans (inTurn_refused hout o)
    exact ⟨fun a v hm => (step_of_moves hm).trans (hrefused _), fun b hm => (step_of_moves hm).trans (hrefused _),
      fun b a hm => (step_of_moves hm).trans (hrefused _), fun hm => (step_of_moves hm).trans (hrefused _)⟩

end Sys2Proof.Machine
end

section
/-! Transactions one after another: `40_shift_register.md` section 2, `41_input_port_latch.md` section 4,
`42_sound_edge_detector.md` section 3. The byte forms of the shift window, a press and its release, the clips of a
write counted, then the obligations. -/

namespace Sys2Proof.Machine

/-- Short of the press of quit, transactions in order have their effects in order. -/
theorem execAll_of_accepting {is : List Instr} {s : State} (h : Accepting s) (hq : .keydownQuit ∉ is) :
    execAll is s = .next (is.foldl (fun u i => effect i u) s) := by
  induction is generalizing s with
  | nil => rfl
  | cons i rest ih =>
    obtain ⟨hi, hrest⟩ := not_or.mp (mt List.mem_cons.mpr hq)
    rw [execAll, exec_of_accepting h]
    exact ih (accepting_effect h (Ne.symm hi)) hrest

/-! ### The shift window (R112, R114) -/

/-- The reply on bytes: the high latch's bits above the low latch's. -/
theorem shiftWindow_eq_or (hi lo : Byte) (o : BitVec 3) :
    shiftWindow hi lo o = (hi <<< o.toNat) ||| (lo >>> (8 - o.toNat)) := by
  have ho : o.toNat < 8 := o.isLt
  refine BitVec.eq_of_getLsbD_eq fun i hi8 => ?_
  rw [getLsbD_shiftWindow _ _ _ hi8, BitVec.getLsbD_append, BitVec.getLsbD_or, BitVec.getLsbD_shiftLeft,
    BitVec.getLsbD_ushiftRight]
  by_cases hio : i < o.toNat
  · have hlow : 8 - o.toNat + i < 8 := by omega
    simp [hio, hlow]
  · have hhigh : ¬ 8 - o.toNat + i < 8 := by omega
    have hindex : 8 - o.toNat + i - 8 = i - o.toNat := by omega
    have hlow : lo.getLsbD (8 - o.toNat + i) = false := BitVec.getLsbD_of_ge lo _ (by omega)
    simp [hio, hhigh, hindex, hlow, hi8]

/-! ### A press and its release (R153, C6) -/

section
variable (p m : Byte)

/-- Setting bits and then clearing them is clearing them. -/
theorem or_and_not : (p ||| m) &&& ~~~m = p &&& ~~~m := by
  refine BitVec.eq_of_getLsbD_eq fun k hk => ?_
  simp only [BitVec.getLsbD_and, BitVec.getLsbD_or, BitVec.getLsbD_not]
  cases m.getLsbD k <;> simp

theorem and_not_and : p &&& ~~~m &&& m = 0 := by
  refine BitVec.eq_of_getLsbD_eq fun k hk => ?_
  cases hm : m.getLsbD k <;> simp [hm]

theorem and_not_and_not : p &&& ~~~m &&& ~~~m = p &&& ~~~m := by
  rw [BitVec.and_assoc, BitVec.and_self]

variable {p m} in
theorem and_not_of_and_eq_zero (h : p &&& m = 0) : p &&& ~~~m = p := by
  refine BitVec.eq_of_getLsbD_eq fun k hk => ?_
  have hbit : (p.getLsbD k && m.getLsbD k) = false := by simpa using congrArg (BitVec.getLsbD · k) h
  cases hm : m.getLsbD k <;> simp_all

end

/-- A press and its release clear the control's bits and do nothing else. -/
theorem releaseControl_pressControl (ctl : Control) (s : State) :
    releaseControl ctl (pressControl ctl s) = releaseControl ctl s := by
  simp only [releaseControl, pressControl, or_and_not]

/-- Releasing a control whose bits are 0 does nothing. -/
theorem releaseControl_of_clear {ctl : Control} {s : State} (h1 : s.inputPort1 &&& mask1 ctl = 0)
    (h2 : s.inputPort2 &&& mask2 ctl = 0) : releaseControl ctl s = s := by
  simp only [releaseControl, and_not_of_and_eq_zero h1, and_not_of_and_eq_zero h2]

/-! ### The clips of a write to port 3 (R161) -/

theorem count_clipsOf_effect_out3 (v : Byte) (s : State) (k : Fin 9) :
    (clipsOf (effect (.out3 v) s).out).count k = (clipsOf s.out).count k +
      if k.val < 4 ∧ v.getLsbD k.val = true ∧ s.lastSoundPort3.getLsbD k.val = false then 1 else 0 := by
  calc (clipsOf (effect (.out3 v) s).out).count k
      = (clipsOf s.out ++ clipsOf (clipEvents soundMap3 v s.lastSoundPort3)).count k := by
        rw [← clipsOf_append]; rfl
    _ = _ := by rw [List.count_append, count_clipsOf (clipEvents _ _ _), count_clipEvents_soundMap3]

theorem effect_out3_lastSoundPort3 (v : Byte) (s : State) : (effect (.out3 v) s).lastSoundPort3 = v := rfl

/-! ### The obligations -/

/-- Settles O13: the reply is the shift window, whose bytes and bits are known. -/
theorem in3WindowEquivalentForms : Obligations.In3WindowEquivalentForms := by
  intro s t h
  obtain ⟨-, rfl⟩ := exec_next h
  refine ⟨shiftWindow s.shiftHigh s.shiftLow s.shiftOffset, rfl, shiftWindow_eq_or _ _ _, fun i hi => ?_⟩
  have ho : s.shiftOffset.toNat < 8 := s.shiftOffset.isLt
  have hindex : 8 - s.shiftOffset.toNat + i = i + 8 - s.shiftOffset.toNat := by omega
  rw [getLsbD_shiftWindow _ _ _ hi, hindex]

/-- Settles O14: two OUT 4 leave `v1` below `v2`, and the offset is stored whole. -/
theorem twoSerialWritesThenRead : Obligations.TwoSerialWritesThenRead := by
  intro s v1 v2 offset h hoffset
  have hfield : (offsetField (BitVec.ofNat 8 offset)).toNat = offset := by
    rw [offsetField_toNat, BitVec.toNat_ofNat]
    omega
  refine ⟨_, shiftWindow v2 v1 (offsetField (BitVec.ofNat 8 offset)), execAll_of_accepting h (by simp), rfl, ?_⟩
  rw [shiftWindow_toNat, hfield]

/-- Settles O19: the decoder on code 7, and the two effects. -/
theorem quitPressStopsRun : Obligations.QuitPressStopsRun := by
  intro s d h
  exact ⟨decode_mkWord_keydown 0x07 d, exec_of_accepting h .keydownQuit, decode_mkWord_keyup 0x07 d,
    exec_of_accepting h .keyupQuit⟩

/-- Settles O20: together the two are the release alone. -/
theorem keyPressReleaseRoundTrip : Obligations.KeyPressReleaseRoundTrip := by
  intro s ctl d d' down up h hdown hup
  cases (decode_keydownOf ctl d).symm.trans hdown
  cases (decode_keyupOf ctl d').symm.trans hup
  have hpressed : Accepting (pressControl ctl s) := h
  refine ⟨releaseControl ctl s, ?_, and_not_and_not _ _, and_not_and_not _ _, and_not_and _ _, and_not_and _ _,
    releaseControl_of_clear⟩
  simp only [execAll, andThen, exec_keydownOf h, exec_keyupOf hpressed, releaseControl_pressControl]

/-- Settles O27: line 0 rises at the second and at the fourth write, and never at the others. -/
theorem retriggerNeedsFallingEdge : Obligations.RetriggerNeedsFallingEdge := by
  intro s h
  refine ⟨_, execAll_of_accepting h (by simp), ?_⟩
  simp [count_clipsOf_effect_out3, effect_out3_lastSoundPort3]

end Sys2Proof.Machine
end

section
/-! Reset and bootstrap: `10_state.md` sections 5 and 6, `70_reset_and_hazards.md` sections 1 and 2. -/

namespace Sys2Proof.Machine

theorem accepting_resetWith {p : Params} (hp : configurationOk p = true) (e : Surroundings) :
    Accepting (State.resetWith p e) := ⟨hp, rfl⟩

/-! ### Images in memory (R256) -/

section
variable {m : Memory} {base : Nat} {image : List Byte}

theorem Memory.read_writeBytes_image (h : Memory.wf m = true) {i : Nat} {v : Byte} (hi : image[i]? = some v) :
    Memory.read (Memory.writeBytes m base image) (base + i) = v := by
  rw [Memory.read_writeBytes h, if_pos (Nat.le_add_right base i), Nat.add_sub_cancel_left, hi]
  rfl

theorem Memory.read_writeBytes_uncovered (h : Memory.wf m = true) {a : Nat} (ha : ¬ covers base image a) :
    Memory.read (Memory.writeBytes m base image) a = Memory.read m a := by
  rw [Memory.read_writeBytes h]
  split
  · have hlen : image.length ≤ a - base := by unfold covers at ha; omega
    rw [List.getElem?_eq_none hlen, Option.getD_none]
  · rfl

/-- An image that starts above an address does not cover it. -/
theorem not_covers_of_lt {a : Nat} (h : a < base) : ¬ covers base image a := fun hc => absurd hc.1 h.not_ge

end

/-- The four images stand at their offsets, and what none of them covers is as before. -/
theorem read_loadRoms {m : Memory} {roms : RomImages} (h : Memory.wf m = true)
    (h0 : roms.rom0000.length ≤ 0x0800) (h1 : roms.rom0800.length ≤ 0x0800) (h2 : roms.rom1000.length ≤ 0x0800) :
    (∀ i v, roms.rom0000[i]? = some v → Memory.read (loadRoms m roms) i = v) ∧
    (∀ i v, roms.rom0800[i]? = some v → Memory.read (loadRoms m roms) (0x0800 + i) = v) ∧
    (∀ i v, roms.rom1000[i]? = some v → Memory.read (loadRoms m roms) (0x1000 + i) = v) ∧
    (∀ i v, roms.rom1800[i]? = some v → Memory.read (loadRoms m roms) (0x1800 + i) = v) ∧
    (∀ a, ¬ covers 0x0000 roms.rom0000 a → ¬ covers 0x0800 roms.rom0800 a → ¬ covers 0x1000 roms.rom1000 a →
      ¬ covers 0x1800 roms.rom1800 a → Memory.read (loadRoms m roms) a = Memory.read m a) := by
  have w0 := Memory.writeBytes_wf h 0x0000 roms.rom0000
  have w1 := Memory.writeBytes_wf w0 0x0800 roms.rom0800
  have w2 := Memory.writeBytes_wf w1 0x1000 roms.rom1000
  unfold loadRoms
  refine ⟨fun i v hi => ?_, fun i v hi => ?_, fun i v hi => ?_, fun i v hi => ?_, fun a c0 c1 c2 c3 => ?_⟩
  · obtain ⟨hlt, -⟩ := List.getElem?_eq_some_iff.mp hi
    rw [Memory.read_writeBytes_uncovered w2 (not_covers_of_lt (by omega)),
      Memory.read_writeBytes_uncovered w1 (not_covers_of_lt (by omega)),
      Memory.read_writeBytes_uncovered w0 (not_covers_of_lt (by omega)), ← Nat.zero_add i]
    exact Memory.read_writeBytes_image h hi
  · obtain ⟨hlt, -⟩ := List.getElem?_eq_some_iff.mp hi
    rw [Memory.read_writeBytes_uncovered w2 (not_covers_of_lt (by omega)),
      Memory.read_writeBytes_uncovered w1 (not_covers_of_lt (by omega))]
    exact Memory.read_writeBytes_image w0 hi
  · obtain ⟨hlt, -⟩ := List.getElem?_eq_some_iff.mp hi
    rw [Memory.read_writeBytes_uncovered w2 (not_covers_of_lt (by omega))]
    exact Memory.read_writeBytes_image w1 hi
  · exact Memory.read_writeBytes_image w2 hi
  · rw [Memory.read_writeBytes_uncovered w2 c3, Memory.read_writeBytes_uncovered w1 c2,
      Memory.read_writeBytes_uncovered w0 c1, Memory.read_writeBytes_uncovered h c0]

/-! ### The obligations -/

/-- Settles O46: the reset state field by field. -/
theorem resetTable : Obligations.ResetTable := by
  rintro p e s rfl
  exact ⟨rfl, rfl, rfl, rfl, rfl, rfl, rfl, rfl, rfl, rfl, rfl⟩

/-- Settles O47: the effects evaluated at the reset values. -/
theorem firstBehaviourAfterReset : Obligations.FirstBehaviourAfterReset := by
  rintro p e s hp rfl
  have h := accepting_resetWith hp e
  refine ⟨?_, exec_of_accepting h .in1, exec_of_accepting h .in2, fun u hu => ?_, fun u hu => ?_, fun v => ?_⟩
  · have hzero : shiftWindow 0x00 0x00 0 = 0x00 := by decide
    rw [exec_of_accepting h, ← hzero]
    rfl
  · have hearly : (u : Int) - (e.now : Int) < (p.tickThreshold : Int) := by omega
    rw [exec_of_accepting (s := { State.resetWith p e with now := u }) h, effect_poll_of_not_due hearly]
  · have hfires : Fires { State.resetWith p e with now := u, inte := true } :=
      ⟨show (p.tickThreshold : Int) ≤ (u : Int) - (e.now : Int) by omega, rfl⟩
    exact ⟨_, exec_of_accepting (s := { State.resetWith p e with now := u, inte := true }) h .poll,
      vectorsOf_effect_poll_of_fires hfires⟩
  · refine ⟨_, exec_of_accepting h (.out3 v), fun k => ?_⟩
    rw [count_clipsOf_effect_out3]
    simp [State.resetWith, clipsOf]

/-- Settles O48: none of the three lower images reaches the next offset, so the later loads leave them. -/
theorem bootstrapLoadsRoms : Obligations.BootstrapLoadsRoms := by
  refine ⟨fun p e roms f => rfl, fun p e roms hp hfit hclips hwf h0 h1 h2 => ?_⟩
  have hclips' : e.clipTable.length = clipCount := hclips
  refine ⟨loadRoms e.mem roms, ?_, read_loadRoms hwf h0 h1 h2⟩
  simp only [bootstrap, hp, hfit, hclips', decide_true, Bool.and_self, if_true]

/-- Settles O49: at reset no poll has fired and the ports hold the switch bits. -/
theorem resetMeetsInvariant : Obligations.ResetMeetsInvariant := by
  intro p e hwf hmem hdelivery hfb hclips
  exact {
    memWf := hwf
    memWithin := hmem
    deliveryWithin := hdelivery
    frameBufferWf := hfb
    clipTableSize := hclips
    undriven1 := by simp [State.resetWith, BitVec.and_assoc]
    undriven2 := by simp [State.resetWith, BitVec.and_assoc]
    phaseParity := rfl
    vectorsAlternate := rfl
    framePerInterrupt := rfl }

end Sys2Proof.Machine
end

section
/-! The redraw: `44_frame_scheduler.md` section 2, `43_video_compositor.md`. What a fired poll leaves, the pixels
of the composite, and the triple loop of R181 as one fold of pixel writes. -/

namespace Sys2Proof.Machine

/-! ### A fired poll (R203 to R205) -/

theorem Phase.toggle_eq (p : Phase) : p.toggle = if p = .mid then .fin else .mid := by cases p <;> rfl

theorem Phase.vector_number (p : Phase) : p.vector.number = if p = .mid then 1 else 2 := by cases p <;> rfl

section
variable {s : State}

/-- A fired poll writes five items and leaves all others. -/
theorem effect_poll_fired (h : Fires s) : effect .poll s = { s with
    phase := s.phase.toggle
    mem := Memory.storeAll s.mem s.deliveryStores
    frameBuffer := composite s.params.vramBase (Memory.storeAll s.mem s.deliveryStores)
    out := s.out ++ [.interrupt s.phase.vector,
      .frame (composite s.params.vramBase (Memory.storeAll s.mem s.deliveryStores))]
    tickBase := s.now } := by
  rw [effect_poll_of_fires h]
  simp [resetBaseline, fireTick, redraw, deliverInterrupt]

/-- R204: the frame drawn is the composite of the memory the poll leaves. -/
theorem frameBuffer_effect_poll_of_fires (h : Fires s) :
    (effect .poll s).frameBuffer = composite s.params.vramBase (effect .poll s).mem := by
  rw [effect_poll_fired h]

/-- R204: the frame drawn is the one handed over. -/
theorem framesOf_effect_poll_of_fires (h : Fires s) :
    framesOf (effect .poll s).out = framesOf s.out ++ [(effect .poll s).frameBuffer] := by
  rw [effect_poll_fired h, framesOf_append]
  rfl

end

/-! ### The pixels of the composite (R183, R184) -/

/-- R183: pixel `(c, 255 - (r*8 + b))` shows bit `b` of the window byte of column `c`, byte-row `r`. -/
theorem windowBit_eq {r b : Nat} (base : Nat) (m : Memory) (c : Nat) (hr : r < 32) (hb : b < 8) :
    windowBit base m c (255 - (r * 8 + b)) = (Memory.read m (windowAddress base c r)).getLsbD b := by
  have hrow : (screenHeight - 1 - (255 - (r * 8 + b))) / 8 = r := by simp only [screenHeight]; omega
  have hbit : (screenHeight - 1 - (255 - (r * 8 + b))) % 8 = b := by simp only [screenHeight]; omega
  rw [windowBit, hrow, hbit]

theorem lit_composite (base : Nat) (m : Memory) {x y : Nat} (hx : x < 224) (hy : y < 256) :
    lit (composite base m) x y = windowBit base m x y := by
  have hread := read_composite base m hx hy (j := 0) (by omega)
  rw [lit, ← Nat.add_zero (pixelOffset x y), hread]
  cases windowBit base m x y <;> rfl

/-- Outside the 229376 bytes a canonical buffer holds nothing. -/
theorem read_outside {fb : FrameBuffer} (h : Memory.within fb frameBufferSize = true) {a : Nat}
    (ha : frameBufferSize ≤ a) : Memory.read fb a = unlistedByte := by
  by_contra hne
  have hlt := List.all_eq_true.mp h _ (Memory.listed_of_read hne)
  exact absurd (of_decide_eq_true hlt) ha.not_gt

/-! ### The triple loop (R181) -/

/-- The indices `(c, r, b)` of R181's loops, in order. -/
def loopIndices : List (Nat × Nat × Nat) :=
  (List.range screenWidth).flatMap fun c =>
    (List.range bytesPerColumn).flatMap fun r => (List.range 8).map fun b => (c, r, b)

/-- The body of R181's loops; `compositeLoop_eq_foldl` ties it to the model. -/
def paint (base : Nat) (mem : Memory) (fb : FrameBuffer) (i : Nat × Nat × Nat) : FrameBuffer :=
  fbWrite fb i.1 (255 - (i.2.1 * 8 + i.2.2)) ((Memory.read mem (windowAddress base i.1 i.2.1)).getLsbD i.2.2)

theorem mem_loopIndices {i : Nat × Nat × Nat} : i ∈ loopIndices ↔ i.1 < 224 ∧ i.2.1 < 32 ∧ i.2.2 < 8 := by
  obtain ⟨c, r, b⟩ := i
  simp [loopIndices, screenWidth, bytesPerColumn, and_left_comm]

theorem compositeLoop_eq_foldl (base : Nat) (mem : Memory) (fb : FrameBuffer) :
    compositeLoop base mem fb = loopIndices.foldl (paint base mem) fb := by
  simp only [compositeLoop, loopIndices, List.foldl_flatMap, List.foldl_map]
  rfl

/-- The byte at `a` is one of the four that the body at `i` writes. -/
def paints (i : Nat × Nat × Nat) (a : Nat) : Prop :=
  pixelOffset i.1 (255 - (i.2.1 * 8 + i.2.2)) ≤ a ∧ a < pixelOffset i.1 (255 - (i.2.1 * 8 + i.2.2)) + 4

section
variable {base a : Nat} {mem : Memory} {fb : FrameBuffer} {i : Nat × Nat × Nat}

theorem paint_wf (h : Memory.wf fb = true) : Memory.wf (paint base mem fb i) = true := fbWrite_wf h _ _ _

theorem read_paint_of_not_paints (h : Memory.wf fb = true) (ha : ¬ paints i a) :
    Memory.read (paint base mem fb i) a = Memory.read fb a := (read_fbWrite h _ _ _ _).trans (if_neg ha)

/-- What the body writes is what the composite holds there. -/
theorem read_paint_of_paints (h : Memory.wf fb = true) (hi : i ∈ loopIndices) (ha : paints i a) :
    Memory.read (paint base mem fb i) a = Memory.read (composite base mem) a := by
  obtain ⟨hc, hr, hb⟩ := mem_loopIndices.mp hi
  have hy : 255 - (i.2.1 * 8 + i.2.2) < 256 := by omega
  obtain ⟨j, rfl⟩ := Nat.exists_eq_add_of_le ha.1
  have hj : j < 4 := by have := ha.2; omega
  rw [read_composite _ _ hc hy hj, windowBit_eq _ _ _ hr hb]
  exact (read_fbWrite h _ _ _ _).trans (if_pos ha)

/-- Every pixel of the screen is painted. -/
theorem exists_paints (ha : a < frameBufferSize) : ∃ i ∈ loopIndices, paints i a := by
  have ha' : a < 229376 := ha
  refine ⟨(a / 4 % 224, (255 - a / 4 / 224) / 8, (255 - a / 4 / 224) % 8), mem_loopIndices.mpr ?_, ?_⟩
  · dsimp only
    omega
  · simp only [paints, pixelOffset, screenWidth, bytesPerPixel]
    omega

end

/-- A byte that already agrees with the composite, or that some index paints, agrees with it after the loop. -/
theorem read_foldl_paint {base a : Nat} {mem : Memory} {l : List (Nat × Nat × Nat)} (hl : ∀ i ∈ l, i ∈ loopIndices)
    {fb : FrameBuffer} (h : Memory.wf fb = true)
    (ha : Memory.read fb a = Memory.read (composite base mem) a ∨ ∃ i ∈ l, paints i a) :
    Memory.read (l.foldl (paint base mem) fb) a = Memory.read (composite base mem) a := by
  induction l generalizing fb with
  | nil => exact ha.resolve_right (by simp)
  | cons i rest ih =>
    refine ih (fun j hj => hl j (List.mem_cons_of_mem i hj)) (paint_wf h) ?_
    by_cases hi : paints i a
    · exact .inl (read_paint_of_paints h (hl i List.mem_cons_self) hi)
    · rw [read_paint_of_not_paints h hi]
      refine ha.imp_right fun ⟨j, hj, hpaints⟩ => ⟨j, ?_, hpaints⟩
      exact (List.mem_cons.mp hj).resolve_left fun hji => hi (hji ▸ hpaints)

theorem foldl_paint_wf (base : Nat) (mem : Memory) (l : List (Nat × Nat × Nat)) {fb : FrameBuffer}
    (h : Memory.wf fb = true) : Memory.wf (l.foldl (paint base mem) fb) = true := by
  induction l generalizing fb with
  | nil => exact h
  | cons i rest ih => exact ih (paint_wf h)

/-! ### The obligations -/

/-- Settles O32: the five items a fired poll writes. -/
theorem firedPollRedraws : Obligations.FiredPollRedraws := by
  intro s h hf
  refine ⟨s.phase.vector, _, ?_, s.phase.vector_number, rfl⟩
  rw [exec_of_accepting h, effect_poll_fired hf, ← Phase.toggle_eq]

/-- Settles O36: the buffer is the composite of the memory the poll leaves, pixel by pixel. -/
theorem frameShowsWindow : Obligations.FrameShowsWindow := by
  intro s t hf h c r b hc hr hb
  obtain ⟨-, rfl⟩ := exec_next h
  have hy : 255 - (r * 8 + b) < 256 := by omega
  rw [frameBuffer_effect_poll_of_fires hf, lit_composite _ _ hc hy, windowBit_eq _ _ _ hr hb]
  refine ⟨rfl, fun j hj => ?_⟩
  have hbyte := read_composite s.params.vramBase (effect .poll s).mem hc hy hj
  rw [windowBit_eq _ _ _ hr hb] at hbyte
  exact hbyte

/-- Settles O37: both sides are canonical, and every byte of the loop's buffer is painted with the composite's. -/
theorem compositeIsTheTripleLoop : Obligations.CompositeIsTheTripleLoop := by
  intro base mem fb h
  obtain ⟨hwf, hwithin⟩ := Bool.and_eq_true_iff.mp h
  rw [compositeLoop_eq_foldl]
  refine Memory.ext (foldl_paint_wf _ _ _ hwf) (composite_wf _ _) fun a => ?_
  refine read_foldl_paint (fun _ => id) hwf ?_
  by_cases ha : a < frameBufferSize
  · exact .inr (exists_paints ha)
  · have houtside := Nat.le_of_not_lt ha
    exact .inl ((read_outside hwithin houtside).trans (read_outside (composite_within _ _) houtside).symm)

/-- Settles O38: the composite is a function of the window. -/
theorem frameDependsOnWindowOnly : Obligations.FrameDependsOnWindowOnly := by
  intro s₁ t₁ s₂ t₂ hf₁ hf₂ h₁ h₂ hbase hwindow
  obtain ⟨-, rfl⟩ := exec_next h₁
  obtain ⟨-, rfl⟩ := exec_next h₂
  have heq : (effect .poll s₁).frameBuffer = (effect .poll s₂).frameBuffer := by
    rw [frameBuffer_effect_poll_of_fires hf₁, frameBuffer_effect_poll_of_fires hf₂, ← hbase]
    exact composite_congr fun k hk => by rw [hwindow k hk, hbase]
  refine ⟨heq, ?_, ?_⟩
  · rw [framesOf_effect_poll_of_fires hf₁, List.getLast?_concat]
  · rw [framesOf_effect_poll_of_fires hf₂, List.getLast?_concat, heq]

end Sys2Proof.Machine
end

section
/-! The invariant and the pace of interrupts: `10_state.md` section 5, `44_frame_scheduler.md` sections 2 and 3.
What every step keeps, then what every run keeps. -/

namespace Sys2Proof.Machine

/-! ### Runs -/

theorem run_succ_of_step {k : Nat} {s u : State} (h : step s = .next u) :
    Host.Core.run Sys2Proof.core (k + 1) s = Host.Core.run Sys2Proof.core k u := by
  have hcore : Sys2Proof.core.step s = .next u := h
  simp only [Host.Core.run, hcore]

/-- A run of one step more begins with a step that answers a next state. -/
theorem run_succ_next {k : Nat} {s t : State} (h : Host.Core.run Sys2Proof.core (k + 1) s = .next t) :
    ∃ u, step s = .next u ∧ Host.Core.run Sys2Proof.core k u = .next t := by
  simp only [Host.Core.run] at h
  split at h
  case h_1 u hu => exact ⟨u, hu, h⟩
  all_goals cases h

/-- What every step keeps, every run keeps. -/
theorem run_keeps {P : State → Prop} (hstep : ∀ s t, P s → step s = .next t → P t) {k : Nat} {s t : State}
    (hs : P s) (h : Host.Core.run Sys2Proof.core k s = .next t) : P t := by
  induction k generalizing s with
  | zero => cases h; exact hs
  | succ k ih =>
    obtain ⟨u, hu, ht⟩ := run_succ_next h
    exact ih (hstep s u hs hu) ht

/-! ### The alternation of the vectors (R37e, R203, R204) -/

theorem phaseAfter_succ (n : Nat) : phaseAfter (n + 1) = (phaseAfter n).toggle := by
  obtain h | h := Nat.mod_two_eq_zero_or_one n
  · have h' : (n + 1) % 2 = 1 := by omega
    simp [phaseAfter, h, h', Phase.toggle]
  · have h' : (n + 1) % 2 = 0 := by omega
    simp [phaseAfter, h, h', Phase.toggle]

theorem phaseAfter_eq_mid {n : Nat} : phaseAfter n = .mid ↔ n % 2 = 0 := by
  simp [phaseAfter]

theorem alternation_succ (n : Nat) : alternation (n + 1) = alternation n ++ [(phaseAfter n).vector] := by
  simp [alternation, List.range_succ]

theorem number_vector_phaseAfter (n : Nat) : (phaseAfter n).vector.number = 1 + n % 2 := by
  rw [Phase.vector_number]
  simp only [phaseAfter_eq_mid]
  split <;> omega

/-- The part of the invariant that rests on the fired polls alone, and so holds from every reset. -/
structure Alternates (s : State) : Prop where
  phaseParity : s.phase = phaseAfter (vectorsOf s.out).length
  vectorsAlternate : vectorsOf s.out = alternation (vectorsOf s.out).length
  framePerInterrupt : (framesOf s.out).length = (vectorsOf s.out).length

/-- R204: only a POLL hands over frames. -/
theorem framesOf_effect_of_ne_poll {i : Instr} (hi : i ≠ .poll) (s : State) :
    framesOf (effect i s).out = framesOf s.out := by
  cases i
  case poll => exact absurd rfl hi
  case in1 | in2 | in3 | inOther => simp [effect, framesOf]
  case out3 | out5 => simp [effect]
  all_goals rfl

/-- A fired poll adds the next vector of the alternation, its frame, and the toggle. -/
theorem Alternates.of_fired {s t : State} (h : Alternates s) (hphase : t.phase = s.phase.toggle)
    (hvectors : vectorsOf t.out = vectorsOf s.out ++ [s.phase.vector])
    (hframes : ∃ fb, framesOf t.out = framesOf s.out ++ [fb]) : Alternates t := by
  obtain ⟨hp, hv, hf⟩ := h
  obtain ⟨fb, hframes⟩ := hframes
  have hlength : (vectorsOf t.out).length = (vectorsOf s.out).length + 1 := by rw [hvectors, List.length_append]; rfl
  constructor
  · rw [hphase, hlength, phaseAfter_succ, ← hp]
  · rw [hlength, alternation_succ, ← hv, ← hp, hvectors]
  · rw [hlength, hframes, List.length_append, hf]; rfl

theorem Alternates.of_eq {s t : State} (h : Alternates s) (hphase : t.phase = s.phase)
    (hvectors : vectorsOf t.out = vectorsOf s.out) (hframes : framesOf t.out = framesOf s.out) : Alternates t := by
  obtain ⟨hp, hv, hf⟩ := h
  exact ⟨by rw [hphase, hvectors, hp], by rw [hvectors, ← hv], by rw [hframes, hvectors, hf]⟩

theorem alternates_effect {s : State} (h : Alternates s) (i : Instr) : Alternates (effect i s) := by
  by_cases hi : i = .poll
  · subst hi
    by_cases hf : Fires s
    · exact h.of_fired (effect_poll_phase_of_fires hf) (vectorsOf_effect_poll_of_fires hf)
        ⟨_, framesOf_effect_poll_of_fires hf⟩
    · obtain ⟨hphase, hout⟩ := effect_poll_phase_out_of_not_fires hf
      exact h.of_eq hphase (congrArg vectorsOf hout) (congrArg framesOf hout)
  · exact h.of_eq (effect_phase_of_ne_poll hi s) (vectorsOf_effect_of_ne_poll hi s) (framesOf_effect_of_ne_poll hi s)

/-- Every step keeps the alternation: it is idle, a transaction, or a move that emits nothing. -/
theorem step_alternates {s t : State} (h : Alternates s) (hs : step s = .next t) : Alternates t := by
  obtain ⟨-, ⟨-, rfl⟩ | ⟨m, rest, -, hmove⟩⟩ := step_next hs
  · exact h
  · obtain ⟨-, ⟨w, i, -, -, -, rfl⟩ | ⟨_, -, rfl⟩ | ⟨_, _, -, -, -, rfl⟩ | ⟨_, -, -, rfl⟩ | ⟨_, -, -, rfl⟩ |
      ⟨b, a, -, -, rfl⟩ | ⟨-, -, rfl⟩⟩ := runMove_next hmove
    · exact alternates_effect (s := { s with moves := rest, turn := (issuerOf i).turnAfter }) (h.of_eq rfl rfl rfl) i
    all_goals exact h.of_eq rfl rfl rfl

theorem alternates_resetWith (p : Params) (e : Surroundings) : Alternates (State.resetWith p e) := ⟨rfl, rfl, rfl⟩

/-! ### The invariant -/

/-- The invariant's part about the state's shape: the arrays, the clip table, the undriven bits. -/
structure WellShaped (s : State) : Prop where
  memWf : Memory.wf s.mem
  memWithin : Memory.within s.mem s.params.memSize
  deliveryWithin : Memory.within s.deliveryStores s.params.memSize
  frameBufferWf : FrameBuffer.wf s.frameBuffer
  clipTableSize : s.clipTable.length = clipCount
  undriven1 : s.inputPort1 &&& undrivenMask1 = s.params.port1SwitchDefault &&& undrivenMask1
  undriven2 : s.inputPort2 &&& undrivenMask2 = s.params.port2SwitchDefault &&& undrivenMask2

theorem inv_iff (s : State) : Inv s ↔ WellShaped s ∧ Alternates s :=
  ⟨fun ⟨h1, h2, h3, h4, h5, h6, h7, h8, h9, h10⟩ => ⟨⟨h1, h2, h3, h4, h5, h6, h7⟩, ⟨h8, h9, h10⟩⟩,
    fun ⟨⟨h1, h2, h3, h4, h5, h6, h7⟩, ⟨h8, h9, h10⟩⟩ => ⟨h1, h2, h3, h4, h5, h6, h7, h8, h9, h10⟩⟩

/-- The shape says nothing of these items. -/
theorem WellShaped.other_items {s : State} (h : WellShaped s) (now : Nat) (inte : Bool) (run : Run) (turn : Turn)
    (diagnostic : Option Diagnostic) (moves : List Move) :
    WellShaped { s with now, inte, run, turn, diagnostic, moves } :=
  ⟨h.memWf, h.memWithin, h.deliveryWithin, h.frameBufferWf, h.clipTableSize, h.undriven1, h.undriven2⟩

theorem frameBuffer_wf_composite (base : Nat) (m : Memory) : FrameBuffer.wf (composite base m) = true :=
  Bool.and_eq_true_iff.mpr ⟨composite_wf base m, composite_within base m⟩

/-- R37b: a transaction keeps the frame buffer or puts a composite in its place. -/
theorem effect_frameBuffer_cases (i : Instr) (s : State) :
    (effect i s).frameBuffer = s.frameBuffer ∨ ∃ base m, (effect i s).frameBuffer = composite base m := by
  by_cases hi : i = .poll
  · subst hi
    obtain he | he | ⟨hf, -⟩ := effect_poll_cases s
    · rw [he]; exact .inl rfl
    · rw [he]; exact .inl rfl
    · exact .inr ⟨_, _, frameBuffer_effect_poll_of_fires hf⟩
  · exact .inl (effect_mem_frameBuffer_tickBase_of_ne_poll hi s).2.1

theorem wellShaped_effect {s : State} (h : WellShaped s) (i : Instr) : WellShaped (effect i s) := by
  obtain ⟨hport1, hport2⟩ := effect_undriven i s
  have hmem : Memory.wf (effect i s).mem = true ∧ Memory.within (effect i s).mem s.params.memSize = true := by
    obtain he | he := effect_mem_cases i s <;> rw [he]
    · exact ⟨h.memWf, h.memWithin⟩
    · exact ⟨Memory.storeAll_wf h.memWf _, Memory.storeAll_within h.memWithin h.deliveryWithin⟩
  have hframe : FrameBuffer.wf (effect i s).frameBuffer = true := by
    obtain he | ⟨base, m, he⟩ := effect_frameBuffer_cases i s <;> rw [he]
    · exact h.frameBufferWf
    · exact frameBuffer_wf_composite base m
  exact {
    memWf := hmem.1
    memWithin := by rw [effect_params]; exact hmem.2
    deliveryWithin := by rw [effect_params, effect_deliveryStores]; exact h.deliveryWithin
    frameBufferWf := hframe
    clipTableSize := by rw [effect_clipTable]; exact h.clipTableSize
    undriven1 := by rw [effect_params, hport1]; exact h.undriven1
    undriven2 := by rw [effect_params, hport2]; exact h.undriven2 }

theorem step_wellShaped {s t : State} (h : WellShaped s) (hs : step s = .next t) : WellShaped t := by
  obtain ⟨-, ⟨-, rfl⟩ | ⟨m, rest, -, hmove⟩⟩ := step_next hs
  · exact h
  · obtain ⟨-, ⟨w, i, -, -, -, rfl⟩ | ⟨_, -, rfl⟩ | ⟨a, v, -, -, ha, rfl⟩ | ⟨_, -, -, rfl⟩ | ⟨d, -, hd, rfl⟩ |
      ⟨b, a, -, -, rfl⟩ | ⟨-, -, rfl⟩⟩ := runMove_next hmove
    · exact wellShaped_effect (h.other_items ..) i
    · exact h.other_items ..
    · exact { h with
        memWf := Memory.write_wf h.memWf a v
        memWithin := Memory.write_within v h.memWithin ha }
    · exact h.other_items ..
    · exact { h with deliveryWithin := hd }
    · exact h.other_items ..
    · exact h.other_items ..

/-! ### The pace of interrupts (R201, R205) -/

/-- The baseline is not after now, and the timebase moves to come never run backwards. -/
structure Paced (s : State) : Prop where
  baseline : s.tickBase ≤ s.now
  monotone : monotoneFrom s.now s.moves = true

/-- The vectors a transaction requests, times the threshold, take no more than the baseline's advance. -/
theorem effect_pace (i : Instr) {s : State} (h : s.tickBase ≤ s.now) :
    (effect i s).tickBase ≤ s.now ∧ (vectorsOf (effect i s).out).length * s.params.tickThreshold + s.tickBase ≤
      (vectorsOf s.out).length * s.params.tickThreshold + (effect i s).tickBase := by
  by_cases hi : i = .poll
  · subst hi
    obtain he | he | ⟨hf, he⟩ := effect_poll_cases s
    · rw [he]; exact ⟨h, le_rfl⟩
    · rw [he, resetBaseline_out, resetBaseline_tickBase]; exact ⟨le_rfl, Nat.add_le_add_left h _⟩
    · have hdue := hf.1
      have hnow : (fireTick s).now = s.now := rfl
      rw [vectorsOf_effect_poll_of_fires hf, he, resetBaseline_tickBase, hnow, List.length_append,
        List.length_singleton, Nat.add_mul]
      omega
  · rw [vectorsOf_effect_of_ne_poll hi, (effect_mem_frameBuffer_tickBase_of_ne_poll hi s).2.2]
    exact ⟨h, le_rfl⟩

/-- The pace of one step: it is kept, and the interrupts requested are paid for by the baseline's advance. -/
theorem step_pace {s t : State} (h : Paced s) (hs : step s = .next t) :
    Paced t ∧ t.params = s.params ∧ (vectorsOf t.out).length * s.params.tickThreshold + s.tickBase ≤
      (vectorsOf s.out).length * s.params.tickThreshold + t.tickBase := by
  obtain ⟨hbase, hmono⟩ := h
  obtain ⟨-, ⟨-, rfl⟩ | ⟨m, rest, hm, hmove⟩⟩ := step_next hs
  · exact ⟨⟨hbase, hmono⟩, rfl, le_rfl⟩
  · rw [hm] at hmono
    obtain ⟨-, ⟨w, i, rfl, -, -, rfl⟩ | ⟨u, rfl, rfl⟩ | ⟨a, v, rfl, -, -, rfl⟩ | ⟨b, rfl, -, rfl⟩ | ⟨d, rfl, -, rfl⟩ |
      ⟨b, a, rfl, -, rfl⟩ | ⟨rfl, -, rfl⟩⟩ := runMove_next hmove
    · obtain ⟨hbase', hpace⟩ :=
        effect_pace i (s := { s with moves := rest, turn := (issuerOf i).turnAfter }) hbase
      exact ⟨⟨by rw [effect_now]; exact hbase', by rw [effect_now, effect_moves]; exact hmono⟩,
        effect_params i _, hpace⟩
    · obtain ⟨hu, hrest⟩ := Bool.and_eq_true_iff.mp hmono
      exact ⟨⟨hbase.trans (of_decide_eq_true hu), hrest⟩, rfl, le_rfl⟩
    all_goals exact ⟨⟨hbase, hmono⟩, rfl, le_rfl⟩

/-- The pace of a run: the steps' payments add up. -/
theorem run_pace {k : Nat} {s t : State} (h : Paced s) (hr : Host.Core.run Sys2Proof.core k s = .next t) :
    (vectorsOf t.out).length * s.params.tickThreshold + s.tickBase ≤
      (vectorsOf s.out).length * s.params.tickThreshold + t.now := by
  induction k generalizing s with
  | zero => cases hr; exact Nat.add_le_add_left h.baseline _
  | succ k ih =>
    obtain ⟨u, hu, ht⟩ := run_succ_next hr
    obtain ⟨hpaced, hparams, hstep⟩ := step_pace h hu
    have hrest := ih hpaced ht
    rw [hparams] at hrest
    omega

/-! ### The obligations -/

/-- Settles O50: the shape and the alternation are each kept by every step. -/
theorem stepKeepsInvariant : Obligations.StepKeepsInvariant := by
  intro s t h hs
  obtain ⟨hshape, halternates⟩ := (inv_iff s).mp h
  exact (inv_iff t).mpr ⟨step_wellShaped hshape hs, step_alternates halternates hs⟩

/-- Settles O35: the alternation holds at reset and so in every run, and its numbers and phase can be read off. -/
theorem vectorsAlternateInEveryRun : Obligations.VectorsAlternateInEveryRun := by
  intro p e k t h
  obtain ⟨hphase, hvectors, hframes⟩ :=
    run_keeps (fun _ _ => step_alternates) (alternates_resetWith p e) h
  refine ⟨hvectors, ?_, hframes, ?_⟩
  · calc (vectorsOf t.out).map IrqVector.number
        = (alternation (vectorsOf t.out).length).map IrqVector.number := congrArg _ hvectors
      _ = _ := by simp [alternation, number_vector_phaseAfter]
  · rw [hphase, phaseAfter_eq_mid]

/-- Settles O34: each interrupt moves the baseline on by a threshold or more, and the baseline is never after now. -/
theorem interruptRateBounded : Obligations.InterruptRateBounded :=
  fun _ _ _ hbase hmono hr => run_pace ⟨hbase, hmono⟩ hr

end Sys2Proof.Machine
end

section
/-! The main loop: `44_frame_scheduler.md` section 3, `70_reset_and_hazards.md` sections 3 and 4. What the moves of
each part of an iteration do, what stops the loop, and the loop as steps of the machine. -/

namespace Sys2Proof.Machine

/-! ### What a move leaves alone -/

section
variable {m : Move} {s t : State}

theorem runMove_params (h : runMove m s = .next t) : t.params = s.params := by
  obtain ⟨-, ⟨w, i, -, -, -, rfl⟩ | ⟨_, -, rfl⟩ | ⟨_, _, -, -, -, rfl⟩ | ⟨_, -, -, rfl⟩ | ⟨_, -, -, rfl⟩ |
    ⟨_, _, -, -, rfl⟩ | ⟨-, -, rfl⟩⟩ := runMove_next h
  · exact effect_params i _
  all_goals rfl

theorem runMove_moves (h : runMove m s = .next t) : t.moves = s.moves := by
  obtain ⟨-, ⟨w, i, -, -, -, rfl⟩ | ⟨_, -, rfl⟩ | ⟨_, _, -, -, -, rfl⟩ | ⟨_, -, -, rfl⟩ | ⟨_, -, -, rfl⟩ |
    ⟨_, _, -, -, rfl⟩ | ⟨-, -, rfl⟩⟩ := runMove_next h
  · exact effect_moves i _
  all_goals rfl

end

/-- What a move with a word that decodes can answer. -/
theorem runMove_word_next {w : Word} {i : Instr} {s t : State} (h : runMove (.transaction w) s = .next t)
    (hd : decode w = .ok i) : Accepting s ∧ s.turn = (issuerOf i).turn ∧
      t = effect i { s with turn := (issuerOf i).turnAfter } := by
  obtain ⟨ha, hword⟩ := whenAccepted_next h
  simp only [runWord, hd] at hword
  obtain ⟨hturn, he⟩ := inTurn_next hword
  exact ⟨ha, hturn, (exec_next he).2⟩

/-! ### One POLL per CPU step (R208, log 29) -/

theorem isPollMove_word {w : Word} {i : Instr} (hd : decode w = .ok i) :
    isPollMove (.transaction w) = decide (i = .poll) := by
  simp only [isPollMove, hd]

/-- A transaction opens a CPU step exactly when it is the POLL. -/
theorem openSteps_turnAfter (i : Instr) :
    openSteps (issuerOf i).turnAfter = openSteps (issuerOf i).turn + (decide (i = .poll)).toNat := by
  cases i <;> rfl

/-- A move opens a CPU step, ends one, or does neither. -/
theorem runMove_openSteps {m : Move} {s t : State} (h : runMove m s = .next t) :
    openSteps s.turn + (isPollMove m).toNat = openSteps t.turn + (isStepDone m).toNat := by
  obtain ⟨-, ⟨w, i, rfl, hd, hturn, rfl⟩ | ⟨_, rfl, rfl⟩ | ⟨_, _, rfl, -, -, rfl⟩ | ⟨_, rfl, -, rfl⟩ | ⟨_, rfl, -, rfl⟩ |
    ⟨_, _, rfl, -, rfl⟩ | ⟨rfl, hturn, rfl⟩⟩ := runMove_next h
  · rw [isPollMove_word hd, effect_turn, openSteps_turnAfter, hturn]
    rfl
  case inr.inr.inr.inr.inr.inr => rw [hturn]; rfl
  all_goals rfl

theorem countP_cons_toNat (p : Move → Bool) (m : Move) (rest : List Move) :
    (m :: rest).countP p = rest.countP p + (p m).toNat := by
  cases hp : p m <;> simp [hp]

/-! ### The main loop as steps (R208, log 1) -/

/-- The state with other moves to come. -/
def withMoves (moves : List Move) (s : State) : State := { s with moves }

theorem effect_withMoves (i : Instr) (moves : List Move) (s : State) :
    effect i (withMoves moves s) = withMoves moves (effect i s) := by
  cases i
  case poll =>
    exact effect_poll_comm (f := withMoves moves) (fun _ => rfl) (fun _ => rfl) (fun _ => rfl) (fun _ => rfl) s
  all_goals rfl

/-- No move looks at the moves that come after it. -/
theorem runMove_withMoves {m : Move} {s t : State} (h : runMove m s = .next t) (moves : List Move) :
    runMove m (withMoves moves s) = .next (withMoves moves t) := by
  have hs : Accepting (withMoves moves s) := (runMove_next h).1
  obtain ⟨-, ⟨w, i, rfl, hd, hturn, rfl⟩ | ⟨u, rfl, rfl⟩ | ⟨a, v, rfl, hturn, ha, rfl⟩ | ⟨b, rfl, hturn, rfl⟩ |
    ⟨d, rfl, hwithin, rfl⟩ | ⟨b, a, rfl, hturn, rfl⟩ | ⟨rfl, hturn, rfl⟩⟩ := runMove_next h
  · rw [runMove_word hs hturn hd, ← effect_withMoves]
    rfl
  · exact runMove_timebase hs u
  · exact runMove_cpuStore hs hturn ha v
  · exact runMove_cpuInte hs hturn b
  · exact runMove_cpuDelivery hs hwithin
  · exact runMove_cpuInvalid hs hturn b a
  · exact runMove_cpuStepDone hs hturn

/-- Moves presented in order are steps of the machine that has them to come. -/
theorem runMoves_isSteps {ms : List Move} {s t : State} (h : runMoves ms s = .next t) :
    ∃ k rest, Host.Core.run Sys2Proof.core k (withMoves ms s) = .next (withMoves rest t) ∧
      (t.run = .running → rest = []) := by
  induction ms generalizing s with
  | nil => cases h; exact ⟨0, [], rfl, fun _ => rfl⟩
  | cons m rest ih =>
    cases hr : s.run with
    | stopped =>
      rw [runMoves_of_stopped hr] at h
      cases h
      exact ⟨0, m :: rest, rfl, fun hrunning => absurd (hr.symm.trans hrunning) Run.noConfusion⟩
    | running =>
      rw [runMoves_cons hr] at h
      obtain ⟨u, hu, ht⟩ := andThen_next h
      obtain ⟨k, left, hk, hleft⟩ := ih ht
      have hstep : step (withMoves (m :: rest) s) = .next (withMoves rest u) :=
        (step_of_moves rfl).trans (runMove_withMoves hu rest)
      exact ⟨k + 1, left, (run_succ_of_step hstep).trans hk, hleft⟩

/-! ### Moves presented one after another -/

/-- A word that belongs to this part of the iteration and does not end it has the effect of its transaction. -/
theorem runMove_word_in_place {s : State} {w : Word} {i : Instr} (h : Accepting s) (hd : decode w = .ok i)
    (hturn : s.turn = (issuerOf i).turn) (hstays : (issuerOf i).turnAfter = (issuerOf i).turn) :
    runMove (.transaction w) s = .next (effect i s) := by
  rw [runMove_word h hturn hd, hstays, ← hturn]

/-- Where the run stands: an allowed configuration, running, at this place of the iteration, with these parameters. -/
def StandsAt (turn : Turn) (p : Params) (s : State) : Prop := Accepting s ∧ s.turn = turn ∧ s.params = p

/-- Moves that each leave the run standing where it does, do so one after another. -/
theorem runMoves_stands {turn : Turn} {p : Params} {ms : List Move}
    (hms : ∀ m ∈ ms, ∀ s, StandsAt turn p s → ∃ u, runMove m s = .next u ∧ StandsAt turn p u)
    {s : State} (h : StandsAt turn p s) : ∃ t, runMoves ms s = .next t ∧ StandsAt turn p t := by
  induction ms generalizing s with
  | nil => exact ⟨s, rfl, h⟩
  | cons m rest ih =>
    obtain ⟨u, hu, hstands⟩ := hms m List.mem_cons_self s h
    obtain ⟨t, ht, hends⟩ := ih (fun n hn => hms n (List.mem_cons_of_mem m hn)) hstands
    refine ⟨t, ?_, hends⟩
    rw [runMoves_cons h.1.2, hu]
    exact ht

/-- What each of some moves keeps, they keep one after another. -/
theorem runMoves_keeps {P : State → Prop} {ms : List Move}
    (hms : ∀ m ∈ ms, ∀ s u, P s → runMove m s = .next u → P u) {s t : State} (hs : P s)
    (h : runMoves ms s = .next t) : P t := by
  induction ms generalizing s with
  | nil => cases h; exact hs
  | cons m rest ih =>
    cases hr : s.run with
    | stopped => rw [runMoves_of_stopped hr] at h; cases h; exact hs
    | running =>
      rw [runMoves_cons hr] at h
      obtain ⟨u, hu, ht⟩ := andThen_next h
      exact ih (fun n hn => hms n (List.mem_cons_of_mem m hn)) (hms m List.mem_cons_self s u hs hu) ht

/-- A run that still goes on after some moves went on before them. -/
theorem running_of_runMoves {ms : List Move} {s t : State} (h : runMoves ms s = .next t) (ht : t.run = .running) :
    s.run = .running := by
  cases hr : s.run with
  | running => rfl
  | stopped =>
    rw [runMoves_of_stopped hr] at h
    cases h
    exact hr.symm.trans ht

/-- The last of some moves, in a run that still goes on after it. -/
theorem runMoves_concat_next {ms : List Move} {m : Move} {s t : State} (h : runMoves (ms ++ [m]) s = .next t)
    (ht : t.run = .running) : ∃ u, runMoves ms s = .next u ∧ runMove m u = .next t := by
  rw [runMoves_append] at h
  obtain ⟨u, hu, hlast⟩ := andThen_next h
  rw [runMoves_cons (running_of_runMoves hlast ht)] at hlast
  obtain ⟨v, hv, hend⟩ := andThen_next hlast
  cases hend
  exact ⟨u, hu, hv⟩

/-- D16: after the move that stops the run nothing more is performed. -/
theorem runMoves_stops {before after : List Move} {m : Move} {s t u : State} (h : runMoves before s = .next t)
    (ht : t.run = .running) (hm : runMove m t = .next u) (hu : u.run = .stopped) :
    runMoves (before ++ m :: after) s = .next u := by
  calc runMoves (before ++ m :: after) s
      = andThen (runMove m t) (runMoves after) := by rw [runMoves_append, h, ← runMoves_cons ht]; rfl
    _ = .next u := by rw [hm]; exact runMoves_of_stopped hu after

/-! ### The key events (R208 (1)) -/

theorem issuerOf_decodeKeyup (sel : Byte) : issuerOf (decodeKeyup sel) = .operator := by
  unfold decodeKeyup
  split <;> rfl

theorem issuerOf_decodeKeydown (sel : Byte) : issuerOf (decodeKeydown sel) = .operator := by
  unfold decodeKeydown
  split <;> rfl

/-- The transaction of a key event. -/
def KeyEvent.instr (k : KeyEvent) : Instr := if k.down then decodeKeydown k.code else decodeKeyup k.code

/-- The word of a key event; `decode_keyEvent` reads its transaction back. -/
def KeyEvent.word (k : KeyEvent) : Word := if k.down then mkWord 3 k.code 0 else mkWord 2 k.code 0

theorem decode_keyEvent (k : KeyEvent) : decode k.word = .ok k.instr := by
  unfold KeyEvent.word KeyEvent.instr
  split
  · exact decode_mkWord_keydown _ _
  · exact decode_mkWord_keyup _ _

theorem issuerOf_keyEvent (k : KeyEvent) : issuerOf k.instr = .operator := by
  unfold KeyEvent.instr
  split
  · exact issuerOf_decodeKeydown _
  · exact issuerOf_decodeKeyup _

/-- Only the press of quit is the transaction of that name. -/
theorem instr_ne_quit {k : KeyEvent} (hk : k.isQuit = false) : k.instr ≠ .keydownQuit := by
  unfold KeyEvent.instr
  intro hquit
  split at hquit
  · rename_i hdown
    have hword := encode_decodeKeydown k.code
    rw [hquit] at hword
    have hcode : 0x07 = k.code := by simpa [encode] using congrArg Word.sel hword
    simp [KeyEvent.isQuit, hdown, ← hcode] at hk
  · have hword := encode_decodeKeyup k.code
    rw [hquit] at hword
    exact absurd (congrArg Word.cls hword) (by simp [encode])

/-- A key event at the start of an iteration has the effect of its transaction and leaves the place. -/
theorem runMove_keyEvent {s : State} (h : Accepting s) (hturn : s.turn = .events) (k : KeyEvent) :
    runMove k.move s = .next (effect k.instr s) := by
  have hissuer := issuerOf_keyEvent k
  exact runMove_word_in_place h (decode_keyEvent k) (by rw [hissuer]; exact hturn) (by rw [hissuer]; rfl)

/-- Short of the press of quit, the key events leave the run at the start of the iteration. -/
theorem runMoves_keys {p : Params} {ks : List KeyEvent} (hks : ∀ k ∈ ks, k.isQuit = false) {s : State}
    (h : StandsAt .events p s) : ∃ t, runMoves (ks.map KeyEvent.move) s = .next t ∧ StandsAt .events p t := by
  refine runMoves_stands (fun m hm u hu => ?_) h
  obtain ⟨k, hk, rfl⟩ := List.mem_map.mp hm
  obtain ⟨ha, hturn, hparams⟩ := hu
  exact ⟨_, runMove_keyEvent ha hturn k, accepting_effect ha (instr_ne_quit (hks k hk)),
    (effect_turn _ _).trans hturn, (effect_params _ _).trans hparams⟩

/-- Whatever the key events, the place and the parameters are kept. -/
theorem turn_params_of_keys {ks : List KeyEvent} {s t : State} (hturn : s.turn = .events)
    (h : runMoves (ks.map KeyEvent.move) s = .next t) : t.turn = .events ∧ t.params = s.params := by
  refine runMoves_keeps (P := fun u => u.turn = .events ∧ u.params = s.params) ?_ ⟨hturn, rfl⟩ h
  rintro m hm u v ⟨hplace, hparams⟩ hv
  obtain ⟨k, -, rfl⟩ := List.mem_map.mp hm
  rw [runMove_keyEvent (runMove_next hv).1 hplace k] at hv
  cases hv
  exact ⟨(effect_turn _ _).trans hplace, (effect_params _ _).trans hparams⟩

/-! ### The POLL and the CPU step (R208 (2), (3)) -/

/-- The state in which the one POLL of an iteration runs. -/
def atPoll (it : Iteration) (s : State) : State :=
  { s with now := it.now, deliveryStores := it.deliveryStores, turn := .cpuStep }

theorem runMoves_pollMoves {it : Iteration} {s : State} (h : Accepting s) (hturn : s.turn = .events)
    (hwithin : Memory.within it.deliveryStores s.params.memSize = true) :
    runMoves it.pollMoves s = .next (effect .poll (atPoll it s)) := by
  have hnow : Accepting { s with now := it.now } := h
  have hstores : Accepting { s with now := it.now, deliveryStores := it.deliveryStores } := h
  have hpoll : runMove (.transaction (mkWord 4 0 0)) { s with now := it.now, deliveryStores := it.deliveryStores } =
      .next (effect .poll (atPoll it s)) := runMove_word hstores hturn (decode_mkWord_poll 0 0)
  rw [Iteration.pollMoves, runMoves_cons h.2, runMove_timebase h, andThen, runMoves_cons hnow.2,
    runMove_cpuDelivery hnow hwithin, andThen, runMoves_cons hstores.2, hpoll]
  rfl

theorem effect_poll_stands {it : Iteration} {p : Params} {s : State} (h : StandsAt .events p s) :
    StandsAt .cpuStep p (effect .poll (atPoll it s)) := by
  obtain ⟨ha, -, hparams⟩ := h
  have hpoll : Accepting (atPoll it s) := ha
  exact ⟨accepting_effect hpoll nofun, effect_turn _ _, (effect_params _ _).trans hparams⟩

/-- Once the POLL has run, the run is inside the CPU's step, in an allowed configuration. -/
theorem turn_config_of_pollMoves {it : Iteration} {s t : State}
    (h : runMoves (it.keyMoves ++ it.pollMoves) s = .next t) (ht : t.run = .running) :
    t.turn = .cpuStep ∧ configurationOk t.params = true := by
  have hsplit : it.keyMoves ++ it.pollMoves = (it.keyMoves ++ [.timebase it.now, .cpuDelivery it.deliveryStores]) ++
      [.transaction (mkWord 4 0 0)] := by simp [Iteration.pollMoves]
  rw [hsplit] at h
  obtain ⟨v, -, hpoll⟩ := runMoves_concat_next h ht
  obtain ⟨ha, -, rfl⟩ := runMove_word_next hpoll (decode_mkWord_poll 0 0)
  exact ⟨effect_turn _ _, by rw [effect_params]; exact ha.1⟩

/-! ### The CPU step (R208 (3)) -/

theorem issuerOf_decodeIn (sel : Byte) : issuerOf (decodeIn sel) = .cpu := by
  unfold decodeIn
  split <;> rfl

theorem issuerOf_decodeOut (sel data : Byte) : issuerOf (decodeOut sel data) = .cpu := by
  unfold decodeOut
  split <;> rfl

/-- A port transaction inside the CPU's step has its effect and leaves the run where it stands. -/
theorem runMove_port_stands {p : Params} {s : State} {w : Word} {i : Instr} (h : StandsAt .cpuStep p s)
    (hd : decode w = .ok i) (hissuer : issuerOf i = .cpu) :
    runMove (.transaction w) s = .next (effect i s) ∧ StandsAt .cpuStep p (effect i s) := by
  obtain ⟨ha, hturn, hparams⟩ := h
  have hquit : i ≠ .keydownQuit := by rintro rfl; cases hissuer
  exact ⟨runMove_word_in_place ha hd (by rw [hissuer]; exact hturn) (by rw [hissuer]; rfl),
    accepting_effect ha hquit, (effect_turn _ _).trans hturn, (effect_params _ _).trans hparams⟩

/-- An action that lets `step()` return leaves the run where it stands. -/
theorem runMove_cpuAction_stands {p : Params} {a : CpuAction} (hreturns : a.returns p.memSize = true) {s : State}
    (h : StandsAt .cpuStep p s) : ∃ u, runMove a.move s = .next u ∧ StandsAt .cpuStep p u := by
  obtain ⟨ha, hturn, hparams⟩ := h
  cases a with
  | input port => exact ⟨_, runMove_port_stands ⟨ha, hturn, hparams⟩ (decode_mkWord_in _ _) (issuerOf_decodeIn _)⟩
  | output port v => exact ⟨_, runMove_port_stands ⟨ha, hturn, hparams⟩ (decode_mkWord_out _ _) (issuerOf_decodeOut _ _)⟩
  | store address v =>
    have hlt : address < s.params.memSize := by rw [hparams]; exact of_decide_eq_true hreturns
    exact ⟨_, runMove_cpuStore ha hturn hlt v, ha, hturn, hparams⟩
  | setInte flag => exact ⟨_, runMove_cpuInte ha hturn flag, ha, hturn, hparams⟩
  | invalidInstruction b a => cases hreturns

theorem runMoves_cpu {p : Params} {as : List CpuAction} (has : as.all (CpuAction.returns p.memSize) = true)
    {s : State} (h : StandsAt .cpuStep p s) :
    ∃ t, runMoves (as.map CpuAction.move) s = .next t ∧ StandsAt .cpuStep p t := by
  refine runMoves_stands (fun m hm u hu => ?_) h
  obtain ⟨a, ha, rfl⟩ := List.mem_map.mp hm
  exact runMove_cpuAction_stands (List.all_eq_true.mp has a ha) hu

/-- Nothing but its return ends the CPU's step. -/
theorem runMove_keeps_cpuStep {m : Move} {s t : State} (hm : m ≠ .cpuStepDone) (hturn : s.turn = .cpuStep)
    (h : runMove m s = .next t) : t.turn = .cpuStep := by
  obtain ⟨-, ⟨w, i, -, -, hplace, rfl⟩ | ⟨_, -, rfl⟩ | ⟨_, _, -, -, -, rfl⟩ | ⟨_, -, -, rfl⟩ | ⟨_, -, -, rfl⟩ |
    ⟨_, _, -, -, rfl⟩ | ⟨rfl, -, -⟩⟩ := runMove_next h
  · have hissuer : (issuerOf i).turn = .cpuStep := hplace.symm.trans hturn
    rw [effect_turn]
    cases hi : issuerOf i <;> rw [hi] at hissuer
    · rfl
    · cases hissuer
    · cases hissuer
  case inr.inr.inr.inr.inr.inr => exact absurd rfl hm
  all_goals exact hturn

/-- Whatever the CPU's actions, they stay inside its step, and the parameters are kept. -/
theorem turn_params_of_cpu {as : List CpuAction} {s t : State} (hturn : s.turn = .cpuStep)
    (h : runMoves (as.map CpuAction.move) s = .next t) : t.turn = .cpuStep ∧ t.params = s.params := by
  refine runMoves_keeps (P := fun u => u.turn = .cpuStep ∧ u.params = s.params) ?_ ⟨hturn, rfl⟩ h
  rintro m hm u v ⟨hplace, hparams⟩ hv
  obtain ⟨a, -, rfl⟩ := List.mem_map.mp hm
  have hreturn : a.move ≠ .cpuStepDone := by cases a <;> exact nofun
  exact ⟨runMove_keeps_cpuStep hreturn hplace hv, (runMove_params hv).trans hparams⟩

/-! ### One iteration (R208) -/

theorem runMoves_append_of_next {ms : List Move} {s u : State} (h : runMoves ms s = .next u) (ns : List Move) :
    runMoves (ms ++ ns) s = runMoves ns u := by
  rw [runMoves_append, h]
  rfl

/-- The parts of an iteration, one after another, and the return of the CPU's step. -/
theorem runMoves_iteration {it : Iteration} {s a b c : State} (hkeys : runMoves it.keyMoves s = .next a)
    (hpoll : runMoves it.pollMoves a = .next b) (hcpu : runMoves it.cpuMoves b = .next c) (hc : Accepting c)
    (hturn : c.turn = .cpuStep) : runMoves it.moves s = .next { c with turn := .events } := by
  rw [Iteration.moves, List.append_assoc, List.append_assoc, runMoves_append_of_next hkeys,
    runMoves_append_of_next hpoll, runMoves_append_of_next hcpu, runMoves_cons hc.2, runMove_cpuStepDone hc hturn]
  rfl

theorem mainLoop_cons {s t : State} {it : Iteration} (hs : s.run = .running) (h : runMoves it.moves s = .next t)
    (its : List Iteration) : mainLoop (it :: its) s = mainLoop its t := by
  simp only [mainLoop, hs, h, andThen]

/-- The loop ends at a move that stops the run, wherever it stands in an iteration. -/
theorem mainLoop_stops {it : Iteration} {before after : List Move} {m : Move} {s t u : State}
    (hmoves : it.moves = before ++ m :: after) (h : runMoves before s = .next t) (ht : t.run = .running)
    (hm : runMove m t = .next u) (hu : u.run = .stopped) (its : List Iteration) :
    mainLoop (it :: its) s = .next u := by
  rw [mainLoop_eq_runMoves, List.flatMap_cons, hmoves, List.append_assoc, List.cons_append]
  exact runMoves_stops h ht hm hu

/-- The press of a control, as a key event. -/
theorem effect_press (ctl : Control) (s : State) :
    effect (KeyEvent.instr ⟨true, controlCode ctl⟩) s = pressControl ctl s := by cases ctl <;> rfl

/-- The release of a control, as a key event. -/
theorem effect_release (ctl : Control) (s : State) :
    effect (KeyEvent.instr ⟨false, controlCode ctl⟩) s = releaseControl ctl s := by cases ctl <;> rfl

/-- A press and its release among the key events are the release alone. -/
theorem runMoves_press_release {s : State} (h : Accepting s) (hturn : s.turn = .events) (ctl : Control) :
    runMoves ([⟨true, controlCode ctl⟩, ⟨false, controlCode ctl⟩].map KeyEvent.move) s =
      .next (releaseControl ctl s) := by
  have hpressed : Accepting (pressControl ctl s) := h
  rw [List.map_cons, List.map_singleton, runMoves_cons h.2, runMove_keyEvent h hturn, effect_press, andThen,
    runMoves_cons hpressed.2, runMove_keyEvent hpressed hturn, effect_release, releaseControl_pressControl]
  rfl

/-- A CPU step that reads IN 1 and then IN 2. -/
theorem runMoves_readPorts {p : Params} {s : State} (h : StandsAt .cpuStep p s) :
    runMoves ([.input 1, .input 2].map CpuAction.move) s = .next (effect .in2 (effect .in1 s)) ∧
      StandsAt .cpuStep p (effect .in2 (effect .in1 s)) := by
  obtain ⟨hin1, h1⟩ := runMove_port_stands (i := .in1) h (decode_mkWord_in 1 0) rfl
  obtain ⟨hin2, h2⟩ := runMove_port_stands (i := .in2) h1 (decode_mkWord_in 2 0) rfl
  refine ⟨?_, h2⟩
  calc runMoves ([.input 1, .input 2].map CpuAction.move) s
      = andThen (runMove (.transaction (mkWord 0 1 0)) s) (runMoves [.transaction (mkWord 0 2 0)]) :=
        runMoves_cons h.1.2 _ _
    _ = andThen (runMove (.transaction (mkWord 0 2 0)) (effect .in1 s)) (runMoves []) := by
        rw [hin1]; exact runMoves_cons h1.1.2 _ _
    _ = .next (effect .in2 (effect .in1 s)) := by rw [hin2]; rfl

/-! ### The obligations -/

/-- Settles O52: the count is kept move by move. -/
theorem onePollPerCpuStep : Obligations.OnePollPerCpuStep := by
  intro k
  induction k with
  | zero => intro s t h; cases h; rfl
  | succ k ih =>
    intro s t h
    obtain ⟨u, hu, ht⟩ := run_succ_next h
    have hrest := ih u t ht
    obtain ⟨-, ⟨hm, rfl⟩ | ⟨m, rest, hm, hmove⟩⟩ := step_next hu
    · rw [hm, List.take_nil] at hrest ⊢
      exact hrest
    · have hmoves : u.moves = rest := runMove_moves hmove
      have hopen := runMove_openSteps hmove
      rw [hm, List.take_succ_cons, countP_cons_toNat, countP_cons_toNat, ← hmoves]
      dsimp only at hopen
      omega

/-- Settles O55: the loop is its moves, and moves in order are steps. -/
theorem mainLoopIsSteps : Obligations.MainLoopIsSteps := by
  intro s t its h
  rw [mainLoop_eq_runMoves] at h
  exact runMoves_isSteps h

/-- Settles O53: each part leaves the run standing where the next one begins. -/
theorem iterationRunsInOrder : Obligations.IterationRunsInOrder := by
  intro s it its h hturn hkeys hwithin hcpu
  have hnoQuit : ∀ k ∈ it.keys, k.isQuit = false := by simpa using hkeys
  obtain ⟨a, hruna, hstandsa⟩ := runMoves_keys hnoQuit ⟨h, hturn, rfl⟩
  obtain ⟨ha, hturna, hparamsa⟩ := hstandsa
  have hpoll := runMoves_pollMoves (it := it) ha hturna (by rw [hparamsa]; exact hwithin)
  obtain ⟨c, hrunc, hc, hturnc, -⟩ := runMoves_cpu hcpu (effect_poll_stands (it := it) ⟨ha, hturna, hparamsa⟩)
  exact ⟨a, _, c, hruna, exec_of_accepting (s := atPoll it a) ha .poll, hrunc, hc.2, hturnc,
    mainLoop_cons h.2 (runMoves_iteration hruna hpoll hrunc hc hturnc) its⟩

/-- Settles O54: the stopping move is found in its place of the iteration, and nothing after it is performed. -/
theorem loopEndsWhereRunStops : Obligations.LoopEndsWhereRunStops := by
  refine ⟨fun s t it before after its h hturn hkeys hbefore ht => ?_,
    fun s t it before after b a its hcpu hbefore ht => ?_, fun s its hs => mainLoop_of_stopped hs its⟩
  · obtain ⟨hturnt, hparams⟩ := turn_params_of_keys hturn hbefore
    have hat : Accepting t := ⟨by rw [hparams]; exact h.1, ht⟩
    have hmoves : it.moves = before.map KeyEvent.move ++ KeyEvent.move ⟨true, 0x07⟩ ::
        (after.map KeyEvent.move ++ it.pollMoves ++ it.cpuMoves ++ [.cpuStepDone]) := by
      simp [Iteration.moves, Iteration.keyMoves, hkeys]
    exact mainLoop_stops hmoves hbefore ht (runMove_keyEvent hat hturnt ⟨true, 0x07⟩) rfl its
  · rw [runMoves_append] at hbefore
    obtain ⟨v, hv, hrest⟩ := andThen_next hbefore
    obtain ⟨hturnv, hconfig⟩ := turn_config_of_pollMoves hv (running_of_runMoves hrest ht)
    obtain ⟨hturnt, hparams⟩ := turn_params_of_cpu hturnv hrest
    have hat : Accepting t := ⟨by rw [hparams]; exact hconfig, ht⟩
    have hmoves : it.moves = (it.keyMoves ++ it.pollMoves ++ before.map CpuAction.move) ++ .cpuInvalid b a ::
        (after.map CpuAction.move ++ [.cpuStepDone]) := by
      simp [Iteration.moves, Iteration.cpuMoves, hcpu, CpuAction.move]
    exact mainLoop_stops hmoves ((runMoves_append_of_next hv _).trans hrest) ht (runMove_cpuInvalid hat hturnt b a)
      rfl its

/-- Settles O22: before the POLL the two key events are the release alone, and neither the POLL nor an IN writes
the ports. -/
theorem pressAndReleaseInOneIterationUnseen : Obligations.PressAndReleaseInOneIterationUnseen := by
  intro s ctl now stores h hturn hwithin
  have hreleased : Accepting (releaseControl ctl s) := h
  have hpoll := runMoves_pollMoves hreleased hturn hwithin
    (it := ⟨[⟨true, controlCode ctl⟩, ⟨false, controlCode ctl⟩], now, stores, [.input 1, .input 2]⟩)
  obtain ⟨hcpu, hc, hturnc, -⟩ := runMoves_readPorts (effect_poll_stands ⟨hreleased, hturn, rfl⟩)
  have hports := effect_inputPorts_of_not_operator (i := .poll) nofun
  exact ⟨_, _, _, _, runMoves_iteration (runMoves_press_release h hturn ctl) hpoll hcpu hc hturnc,
    List.append_assoc _ _ _, (hports _).1, (hports _).2⟩

end Sys2Proof.Machine
end
